-- ==== Sys2Proof/Word.lean ====
section
/-! DEFINITION. The words of the block (00_scope.md R8): the byte, the 16-bit number, the byte sequence. -/

namespace Sys2Proof

/-- A **byte**, `u8` (R8): the width of every wire symbol (R7). -/
abbrev Byte := BitVec 8

/-- `u16` (R8): the width of the payloadLength field and of the 16-bit arguments (R7, R57). -/
abbrev Half := BitVec 16

/-- `Bytes` (R8): a finite sequence of bytes, index 0 the first byte sent or received (R9). -/
abbrev Bytes := List Byte

end Sys2Proof
end

