-- ==== Sys2Proof/Machine/Bits.lean ====
section
/-! DEFINITION. Bit slices and byte order (00_scope.md R9, 20_memory.md R23). -/

namespace Sys2Proof.Machine

/-- `v[15:8]`, the high byte of a u16 (R9). -/
def hiByte (v : Half) : Byte := v.extractLsb' 8 8

/-- `v[7:0]`, the low byte of a u16 (R9). -/
def loByte (v : Half) : Byte := v.extractLsb' 0 8

/-- `be16(x, y) = x*256 + y`: a big-endian 16-bit field from its first byte `x` and second byte `y` (R9). -/
def be16 (x y : Byte) : Nat := x.toNat * 256 + y.toNat

/-- A u16 in big-endian order: payloadLength, beeperTime, durationMs (R23). -/
def bigEndian (v : Half) : Bytes := [hiByte v, loByte v]

/-- A u16 in little-endian order: ledTime (R23). -/
def littleEndian (v : Half) : Bytes := [loByte v, hiByte v]

/-- A number below 65536 as the u16 of a length field (R34: `L[15:8]`, `L[7:0]`). -/
def lengthField (n : Nat) : Half := BitVec.ofNat 16 n

end Sys2Proof.Machine
end

