-- ==== Sys2Proof/Syntax.lean ====
section
/-! DEFINITION. The host transactions as syntax: one constructor of `Instr` per row of spec/opcode_table.json
(30_encoding.md R45), with the operands as the HOST gives them, before the interface has checked any. -/

namespace Sys2Proof

/-- The 13 operations of the command catalog, the legal selectors of `SEND` (10_state.md R17, 42_commands.md R54). -/
inductive Operation where
  | reboot
  | beeperAndLed
  | handshake
  | cpuCardRequest
  | cpuGeneralCommand
  | cardSelectCancel
  | cardPending
  | m1CardTestRequest
  | m1DownloadPasswordList
  | m1ReadContentByKey
  | m1WriteContentByKey
  | m1ReadContentByCommand
  | m1WriteContentByCommand
  deriving DecidableEq, Repr

/-- The argument names of `SEND` (42_commands.md R57, 30_encoding.md R46). -/
inductive ArgName where
  | beeperTime
  | beeperCycle
  | ledTime
  | ledFlashCycle
  | durationMs
  | type
  | groups
  | block
  | passwordType
  | password
  | content
  deriving DecidableEq, Repr

/-- A password group as the host gives it: no field checked yet (R42, R57). `passwordType` is the number
the host names (A = 0, B = 1, NoChange = 2). -/
structure GroupArg where
  block        : Int
  passwordType : Int
  password     : Bytes
  deriving DecidableEq, Repr

/-- The value of a named argument as the host gives it (R46, R57). -/
inductive ArgVal where
  | int    (v : Int)
  | bytes  (b : Bytes)
  | groups (gs : List GroupArg)
  deriving DecidableEq, Repr

/-- One `<name>=<value>` of a `SEND` (R46). An argument that is left out is unset. -/
structure Arg where
  name  : ArgName
  value : ArgVal
  deriving DecidableEq, Repr

/-- A host transaction or an arrival on the wire: one constructor per row of spec/opcode_table.json.
A numeric argument of a `SEND` is an `Int`, because the host can give a value outside its type, and the interface
then refuses it (R57, R101). Log entry 10. -/
inductive Instr where
  /-- `SEND reboot()`, R58. -/
  | sendReboot
  /-- `SEND beeperAndLed(...)`, R59; `none` is unset. -/
  | sendBeeperAndLed (beeperTime beeperCycle ledTime ledFlashCycle : Option Int)
  /-- `SEND handshake()`, R60. -/
  | sendHandshake
  /-- `SEND cardSelectCancel(durationMs)`, R61. -/
  | sendCardSelectCancel (durationMs : Int)
  /-- `SEND cardPending(durationMs)`, R62. -/
  | sendCardPending (durationMs : Int)
  /-- `SEND m1CardTestRequest(type)`, R63. -/
  | sendM1CardTestRequest (type : Int)
  /-- `SEND m1DownloadPasswordList(groups)`, R64; `none` is absent. -/
  | sendM1DownloadPasswordList (groups : Option (List GroupArg))
  /-- `SEND m1ReadContentByKey(block, passwordType)`, R65. -/
  | sendM1ReadContentByKey (block passwordType : Int)
  /-- `SEND m1WriteContentByKey(block, passwordType, content)`, R66. -/
  | sendM1WriteContentByKey (block passwordType : Int) (content : Bytes)
  /-- `SEND m1ReadContentByCommand(block, passwordType, password)`, R67. -/
  | sendM1ReadContentByCommand (block passwordType : Int) (password : Bytes)
  /-- `SEND m1WriteContentByCommand(block, passwordType, password, content)`, R68. -/
  | sendM1WriteContentByCommand (block passwordType : Int) (password content : Bytes)
  /-- `SEND cpuCardRequest(...)`, R69: any arguments. -/
  | sendCpuCardRequest (args : List Arg)
  /-- `SEND cpuGeneralCommand(...)`, R70: any arguments. -/
  | sendCpuGeneralCommand (args : List Arg)
  /-- An RX frame (R36) arrives as one chunk; `cs` and `term` are the bytes at the checksum's and the terminator's
  places, right or wrong. Log entry 4. -/
  | rxFrame (op : Byte) (payload : Bytes) (seq cs term : Byte)
  /-- The resync mark's six bytes (R38) arrive as one chunk. Log entry 4. -/
  | rxResyncMark
  /-- `SEND(operation, args)`, R54: the selector as a byte, catalog opcode or not, and the named arguments. -/
  | send (selector : Byte) (args : List Arg)
  /-- `PACK(op, payload, seq)`, R50. -/
  | pack (op : Byte) (payload : Bytes) (seq : Byte)
  /-- `SUM(bytes, start, end)`, R47. -/
  | sum (bytes : Bytes) (start stop : Nat)
  /-- `FEED(chunk)`, R71. -/
  | feed (chunk : Bytes)
  /-- `CLOSE()`, R91. -/
  | close
  /-- `RESET()`, R90. -/
  | reset
  deriving DecidableEq, Repr

/-- Why a byte string is no transaction. The byte form of the operands is the model's own (log entry 2). -/
inductive DecodeError where
  /-- No byte at all, or the bytes end before the transaction does. -/
  | truncated
  /-- The first bytes are no row of the opcode table. -/
  | noSuchRow
  /-- A tag byte (present or absent, argument name, kind of value) that names nothing. -/
  | badTag
  /-- A number written with a needless zero digit: every number has one spelling. -/
  | overlong
  /-- Bytes are left over behind the transaction. -/
  | surplus
  deriving DecidableEq, Repr

end Sys2Proof
end

