-- ==== Sys2Proof/Machine/Constants.lean ====
section
/-! DEFINITION. The hard-wired constants (10_state.md R16), the catalog's opcodes (R17, 30_encoding.md R41) and the
transaction kind codes (30_encoding.md R45). -/

namespace Sys2Proof.Machine

/-- `SYNC` (R16). -/
def sync : Byte := 0xFE
/-- `TAG`, the deviceTag (R16). -/
def tag : Byte := 0x68
/-- `VER_OUT`, protocolVersionOut (R16). -/
def verOut : Byte := 0x25
/-- `VER_IN`, protocolVersionIn (R16). -/
def verIn : Byte := 0x26
/-- `TERM`, the terminator (R16). -/
def term : Byte := 0x16

/-- `HDR_OUT`, the first 4 bytes of every TX frame (R16). -/
def hdrOut : Bytes := [sync, sync, tag, verOut]
/-- `HDR_IN`, the 5 bytes the header matcher compares (R16). -/
def hdrIn : Bytes := [sync, sync, sync, tag, verIn]
/-- `RESYNC_PAT`, the 6 bytes the resynchronizer searches for (R16, R38). -/
def resyncPat : Bytes := term :: hdrIn

/-- The greatest payloadLength, 65535 (R35). -/
def maxPayload : Nat := 65535

/-- The catalog opcode of an operation (R17, R41). -/
def opcode : Operation → Byte
  | .reboot                  => 0x04
  | .beeperAndLed            => 0x05
  | .handshake               => 0x06
  | .cpuCardRequest          => 0x07
  | .cpuGeneralCommand       => 0x08
  | .cardSelectCancel        => 0x09
  | .cardPending             => 0x0A
  | .m1CardTestRequest       => 0x20
  | .m1DownloadPasswordList  => 0x21
  | .m1ReadContentByKey      => 0x22
  | .m1WriteContentByKey     => 0x23
  | .m1ReadContentByCommand  => 0x24
  | .m1WriteContentByCommand => 0x25

/-- The catalog's entries (R17), in the order of their opcodes. -/
def catalog : List Operation :=
  [.reboot, .beeperAndLed, .handshake, .cpuCardRequest, .cpuGeneralCommand, .cardSelectCancel, .cardPending,
   .m1CardTestRequest, .m1DownloadPasswordList, .m1ReadContentByKey, .m1WriteContentByKey,
   .m1ReadContentByCommand, .m1WriteContentByCommand]

/-- The operation a selector names: "one of the 13 catalog operations, selected by its opcode" (R45, R54). -/
def operationOf (selector : Byte) : Option Operation := catalog.find? (fun o => opcode o == selector)

/-- Kind code of `SEND` (R45). -/
def kindSend : Byte := 0x01
/-- Kind code of `PACK` (R45). -/
def kindPack : Byte := 0x02
/-- Kind code of `SUM` (R45). -/
def kindSum : Byte := 0x03
/-- Kind code of `FEED` (R45). -/
def kindFeed : Byte := 0x04
/-- Kind code of `CLOSE` (R45). -/
def kindClose : Byte := 0x05
/-- Kind code of `RESET` (R45). -/
def kindReset : Byte := 0x06

end Sys2Proof.Machine
end

