-- ==== Sys2Proof/Config.lean ====
section
/-! DEFINITION. What a build of the block fixes (00_scope.md R7). The spec leaves no value free, so there is no
opaque constant here; the one OPEN parameter, `BUF_CAP`, is the field `bufCap` of State, and this file
gives the value the spec takes for it by default. -/

namespace Sys2Proof

/-- `BUF_CAP` as the spec takes it: unbounded (R7, R86, decision D10). Log entry 6. -/
def Config.defaultBufCap : Option Nat := none

end Sys2Proof
end

