-- ==== Sys2Proof/Machine/State.lean ====
section
/-! DEFINITION. The state of the block (10_state.md), the results a transaction can have (60_exceptions.md), and the
reasons a step can stop. -/

namespace Sys2Proof.Machine

/-- `STATE`, the session state (R13): the spec's `OPEN` and `CLOSED`. -/
inductive Session where
  | opened
  | closed
  deriving DecidableEq, Repr

/-- The ValidationError reasons (R96). -/
inductive Reason where
  | blockRange
  | passwordLength
  | contentLength
  | emptyList
  deriving DecidableEq, Repr

/-- The kinds of FramingError (R98). -/
inductive Framing where
  | badTerminator
  | badChecksum
  deriving DecidableEq, Repr

/-- An event of a `FEED` pass (R77, R78, R79). -/
inductive Event where
  /-- `EMIT(payload)`. -/
  | emit (payload : Bytes)
  /-- `FRAMING(kind)`. -/
  | framing (kind : Framing)
  deriving DecidableEq, Repr

/-- The status codes of R95. `framing` is never a status and `transport` is never returned by the block; they stand here
because R95 gives them codes in the same code space. -/
inductive Status where
  | ok
  | validation (reason : Reason)
  | notImplemented
  | framing (kind : Framing)
  | transport
  | closed
  deriving DecidableEq, Repr

/-- The result of a transaction (R20). -/
inductive Result where
  /-- `OK(frame)`: `SEND` and `PACK`. -/
  | okFrame (frame : Bytes)
  /-- `OK(value)`: `SUM`. -/
  | okValue (value : Byte)
  /-- `OK(events)`: `FEED`. -/
  | okEvents (events : List Event)
  /-- `OK`: `CLOSE` and `RESET`. -/
  | ok
  /-- A non-OK status, `raise <Status>(info)` (R10). -/
  | raised (status : Status)
  deriving DecidableEq, Repr

/-- What would stop the block. The spec has no machine fault (R82, R102); these two name what its rules leave without a
meaning, and no state reaches either (log entry 11). Both are safe: they stop, and fix no value. -/
inductive Fault where
  /-- The decode pass read an index outside `RXBUF`, which R9 and R24 leave undefined. Raised by `FEED`, `RX.FRAME` and
  `RX.RESYNC_MARK`. Safe. -/
  | rxbufIndex
  /-- The decode pass ran more iterations than R82 allows. Raised by `FEED`, `RX.FRAME` and `RX.RESYNC_MARK`. Safe. -/
  | passDidNotEnd
  deriving DecidableEq, Repr

/-- The interface refusals (R101): the block gives the transaction no meaning and takes no step. All are safe. -/
inductive Refusal where
  /-- An instruction without a meaning yet: an arm of `exec` only. Safe. -/
  | notModelled (mnemonic : String)
  /-- `NO_SUCH_OPERATION` (R54, R101): raised by `SEND` with a selector outside the catalog. Safe. -/
  | noSuchOperation
  /-- `ARG_TYPE` (R57, R59, R101): raised by `SEND` and every `SEND.*` with operands. Safe. -/
  | argType
  /-- `PAYLOAD_TOO_LONG` (R50, R101): raised by `PACK`. Safe. -/
  | payloadTooLong
  /-- `SUM_RANGE` (R47, R101): raised by `SUM`. Safe. -/
  | sumRange
  /-- `BUF_OVERFLOW` (R86, R101): raised by `FEED`, `RX.FRAME` and `RX.RESYNC_MARK` in a bounded build. Safe. -/
  | bufOverflow
  /-- An `RX.FRAME` whose payload does not fit the 16-bit length field: no RX frame (R36), and no bytes decode to it. Safe. -/
  | noRxFrame
  /-- The bytes presented are no transaction (R45): raised by `step`. Safe. -/
  | undecodable (why : DecodeError)
  deriving DecidableEq, Repr

/-- The state of the block. `seq`, `session` and `rxbuf` are all of its registers (R18); `bufCap` is its build parameter;
the other four are the model's own (log entries 1 and 5): what the host has presented, and what the block has put out. -/
structure State where
  /-- `SEQ`, the sequence counter (R12). -/
  seq : Byte
  /-- `STATE`, the session state (R13). -/
  session : Session
  /-- `RXBUF`, the decode buffer, index 0 the oldest byte (R14). -/
  rxbuf : Bytes
  /-- `BUF_CAP`, the capacity of `RXBUF` (R7, R86); `none` is unbounded. Log entry 6. -/
  bufCap : Option Nat
  /-- The transactions presented and not yet taken, oldest first, each as its bytes. Log entry 1. -/
  pending : List Bytes
  /-- The result of the last transaction (R20). Log entry 5. -/
  result : Option Result
  /-- The frames handed to the transport by `txout` (R10), oldest first. Log entry 5. -/
  txout : List Bytes
  /-- The events returned (R10), oldest first. Log entry 5. -/
  rxout : List Event
  deriving DecidableEq, Repr

/-- The state at power-on, which is the state `RESET` gives (R22, R108); nothing presented, nothing put out. -/
def State.reset : State where
  seq     := 0
  session := .opened
  rxbuf   := []
  bufCap  := Config.defaultBufCap
  pending := []
  result  := none
  txout   := []
  rxout   := []

/-- What a transaction answers. -/
abbrev Answer := Host.Outcome State Fault Refusal

end Sys2Proof.Machine
end

