-- ==== Sys2Proof/Machine/Ops.lean ====
section
/-! DEFINITION. The named operations of 00_scope.md R10: reading and changing `RXBUF`, ending a transaction with a result
or a status, refusing it, handing a frame to the transport, and taking the next presented transaction. -/

namespace Sys2Proof.Machine

/-! ### The decode buffer -/

/-- `b[i]`, defined only for `i < len(b)` (R9, R24). -/
def readByte (b : Bytes) (i : Nat) : Option Byte := b[i]?

/-- `MemRead(i, n) = b[i..i+n)`, defined only for `i + n <= len(b)` (R9, R10). -/
def memRead (b : Bytes) (i n : Nat) : Option Bytes :=
  if i + n ≤ b.length then some ((b.drop i).take n) else none

/-- `BufAppend(c)` (R10). -/
def bufAppend (b c : Bytes) : Bytes := b ++ c

/-- `BufDrop(n)` (R10). -/
def bufDrop (n : Nat) (b : Bytes) : Bytes := b.drop n

/-- `len(RXBUF) + len(c) > BUF_CAP` (R71, R86). -/
def overflows (cap : Option Nat) (b c : Bytes) : Bool :=
  match cap with
  | none   => false
  | some n => b.length + c.length > n

/-! ### Ending a transaction -/

/-- The transaction's result, put out (R20). -/
def finish (r : Result) (s : State) : State := { s with result := some r }

/-- `return OK…`: the transaction ends with a result and no other change. -/
def answer (r : Result) (s : State) : Answer := .next (finish r s)

/-- `raise <Status>(info)` (R10): the transaction ends with a non-OK status. This is all an error does: it saves nothing,
changes no mode and goes to no handler, and the next transaction starts from the state it leaves (R102, R103). -/
def raise (st : Status) (s : State) : Answer := answer (.raised st) s

/-- `refuse(reason)` (R10, R101): the transaction has no meaning and no step is taken. -/
def refuse (r : Refusal) : Answer := .refused r

/-- The end of a successful `SEND` (R55): `SEQ` takes its new value and the frame goes out whole, as one `txout(f)`
(R29). -/
def transmit (f : Bytes) (seq : Byte) (s : State) : State :=
  finish (.okFrame f) { s with seq := seq, txout := s.txout ++ [f] }

/-- The end of a `FEED` pass (R71): the buffer it leaves and the events it returns, in order. -/
def receive (b : Bytes) (es : List Event) (s : State) : State :=
  finish (.okEvents es) { s with rxbuf := b, rxout := s.rxout ++ es }

/-- The end of a session (R91). `SEQ` is not written. -/
def endSession (s : State) : State :=
  finish .ok { s with rxbuf := [], session := .closed }

/-- The start of a session (R90): all three registers to the values of R22. What has been put out or presented is not the
block's (log entry 7). -/
def startSession (s : State) : State :=
  finish .ok { s with seq := 0, rxbuf := [], session := .opened }

/-! ### The host's side -/

/-- The oldest presented transaction and the state without it (R27). Log entry 1. -/
def takeTransaction (s : State) : Option (Bytes × State) :=
  match s.pending with
  | []       => none
  | b :: bs  => some (b, { s with pending := bs })

/-- The host presents a transaction that the block takes next. -/
def present (b : Bytes) (s : State) : State := { s with pending := b :: s.pending }

end Sys2Proof.Machine
end

