-- ==== Sys2Proof/Machine/Checksum.lean ====
section
/-! DEFINITION. The checksum unit (40_checksum.md). -/

namespace Sys2Proof.Machine

/-- The accumulation of R47: `acc <- (acc + bytes[i]) mod 256`, from 0. -/
def sumAll (b : Bytes) : Byte := b.foldl (· + ·) 0

/-- `SUM(bytes, start, end)` over a range inside `bytes` (R47); encoder and decoder use this same function. -/
def sumRange (b : Bytes) (start stop : Nat) : Byte := sumAll ((b.drop start).take (stop - start))

/-- `SUM` (R47). Pure: the result is its only effect, in either session state (R26, R52). -/
def execSum (b : Bytes) (start stop : Nat) (s : State) : Answer :=
  if start ≤ stop ∧ stop ≤ b.length then answer (.okValue (sumRange b start stop)) s else refuse .sumRange

end Sys2Proof.Machine
end

