-- ==== Sys2Proof/Machine/Encoder.lean ====
section
/-! DEFINITION. The frame encoder (41_frame_encoder.md). -/

namespace Sys2Proof.Machine

/-- `PACK(op, p, s)` (R50, layout R34): `none` is the refusal `PAYLOAD_TOO_LONG`. -/
def packFrame (op : Byte) (p : Bytes) (s : Byte) : Option Bytes :=
  if p.length ≤ maxPayload then
    let f := hdrOut ++ [op] ++ bigEndian (lengthField p.length) ++ p ++ [s]
    some (f ++ [sumRange f 2 f.length, term])
  else none

/-- `PACK` (R50, R52). Pure: it does not send, and reads and writes no register. -/
def execPack (op : Byte) (p : Bytes) (seq : Byte) (s : State) : Answer :=
  match packFrame op p seq with
  | some f => answer (.okFrame f) s
  | none   => refuse .payloadTooLong

end Sys2Proof.Machine
end

