-- ==== Sys2Proof/Machine/Operands.lean ====
section
/-! DEFINITION. The operand forms of `SEND`: the argument types of 42_commands.md R57, the commands with their arguments in
those types, and how the arguments the host gives become one (R54). `none` is the refusal `ARG_TYPE`. -/

namespace Sys2Proof.Machine

/-- `PwType = {A=0, B=1, NoChange=2}` (R42, R57). -/
inductive PwType where
  | a
  | b
  | noChange
  deriving DecidableEq, Repr

/-- `num(passwordType)` (R42, R64). -/
def pwNum : PwType → Byte
  | .a        => 0
  | .b        => 1
  | .noChange => 2

/-- A PasswordGroup in its types (R42, R57). -/
structure PasswordGroup where
  block        : Byte
  passwordType : PwType
  password     : { p : Bytes // p.length = 6 }
  deriving DecidableEq, Repr

/-- A catalog operation with its arguments in their types (R57). For beeperAndLed they are the four values to encode, the
default substitution done (R59). -/
inductive Command where
  | reboot
  | beeperAndLed (beeperTime : Half) (beeperCycle : Byte) (ledTime : Half) (ledFlashCycle : Byte)
  | handshake
  | cardSelectCancel (durationMs : Half)
  | cardPending (durationMs : Half)
  | m1CardTestRequest (type : Byte)
  | m1DownloadPasswordList (groups : Option (List PasswordGroup))
  | m1ReadContentByKey (block : Nat) (passwordType : PwType)
  | m1WriteContentByKey (block : Nat) (passwordType : PwType) (content : Bytes)
  | m1ReadContentByCommand (block : Nat) (passwordType : PwType) (password : Bytes)
  | m1WriteContentByCommand (block : Nat) (passwordType : PwType) (password content : Bytes)
  | cpuCardRequest
  | cpuGeneralCommand
  deriving DecidableEq, Repr

/-! ### The types of R57 -/

/-- A u8 argument. -/
def asU8 (v : Int) : Option Byte := if 0 ≤ v ∧ v ≤ 255 then some (BitVec.ofNat 8 v.toNat) else none

/-- A u16 argument. -/
def asU16 (v : Int) : Option Half := if 0 ≤ v ∧ v ≤ 65535 then some (BitVec.ofNat 16 v.toNat) else none

/-- A Nat argument: `block` of opcodes 0x22 to 0x25 (decision D3). -/
def asNat (v : Int) : Option Nat := if 0 ≤ v then some v.toNat else none

/-- A `PwType` argument (decision D4). -/
def asPwType (v : Int) : Option PwType :=
  if v = 0 then some .a else if v = 1 then some .b else if v = 2 then some .noChange else none

/-- An optional argument: unset stays unset. -/
def asOptional {α : Type} (as : Int → Option α) : Option Int → Option (Option α)
  | none   => some none
  | some v => (as v).map some

/-- A PasswordGroup argument: its password is exactly 6 bytes. -/
def asGroup (g : GroupArg) : Option PasswordGroup := do
  let block ← asU8 g.block
  let passwordType ← asPwType g.passwordType
  if h : g.password.length = 6 then some ⟨block, passwordType, ⟨g.password, h⟩⟩ else none

/-- The groups argument: absent, or at most 255 entries (decision D22). -/
def asGroups : Option (List GroupArg) → Option (Option (List PasswordGroup))
  | none    => some none
  | some gs => if gs.length ≤ 255 then (gs.mapM asGroup).map some else none

/-! ### One operand form per command -/

/-- `BEEP_DEFAULTS = (512, 128, 1024, 128)` (R16). -/
def beepDefaults : Command := .beeperAndLed 512 128 1024 128

/-- The operands of beeperAndLed (R57, R59): each in its type; when `beeperTime` is unset or zero the defaults replace all
four; otherwise none may be unset. -/
def beeperAndLedCommand (bt bc lt lf : Option Int) : Option Command := do
  let bt ← asOptional asU16 bt
  let bc ← asOptional asU8 bc
  let lt ← asOptional asU16 lt
  let lf ← asOptional asU8 lf
  match bt with
  | none   => some beepDefaults
  | some t =>
    if t = 0 then some beepDefaults
    else
      match bc, lt, lf with
      | some c, some l, some f => some (.beeperAndLed t c l f)
      | _, _, _                => none

/-- The operand of cardSelectCancel (R61). -/
def cardSelectCancelCommand (d : Int) : Option Command := (asU16 d).map .cardSelectCancel

/-- The operand of cardPending (R62). -/
def cardPendingCommand (d : Int) : Option Command := (asU16 d).map .cardPending

/-- The operand of m1CardTestRequest (R63). -/
def m1CardTestRequestCommand (t : Int) : Option Command := (asU8 t).map .m1CardTestRequest

/-- The operand of m1DownloadPasswordList (R64). -/
def m1DownloadPasswordListCommand (gs : Option (List GroupArg)) : Option Command :=
  (asGroups gs).map .m1DownloadPasswordList

/-- The operands of m1ReadContentByKey (R65). -/
def m1ReadContentByKeyCommand (block pt : Int) : Option Command := do
  let block ← asNat block
  let pt ← asPwType pt
  some (.m1ReadContentByKey block pt)

/-- The operands of m1WriteContentByKey (R66). -/
def m1WriteContentByKeyCommand (block pt : Int) (content : Bytes) : Option Command := do
  let block ← asNat block
  let pt ← asPwType pt
  some (.m1WriteContentByKey block pt content)

/-- The operands of m1ReadContentByCommand (R67). -/
def m1ReadContentByCommandCommand (block pt : Int) (password : Bytes) : Option Command := do
  let block ← asNat block
  let pt ← asPwType pt
  some (.m1ReadContentByCommand block pt password)

/-- The operands of m1WriteContentByCommand (R68). -/
def m1WriteContentByCommandCommand (block pt : Int) (password content : Bytes) : Option Command := do
  let block ← asNat block
  let pt ← asPwType pt
  some (.m1WriteContentByCommand block pt password content)

/-! ### The named arguments of `SEND(operation, args)` -/

/-- The value given for a name; `none` is unset (R46). -/
def findArg (n : ArgName) : List Arg → Option ArgVal
  | []      => none
  | a :: as => if a.name = n then some a.value else findArg n as

/-- An optional numeric argument. -/
def optionalInt (n : ArgName) (args : List Arg) : Option (Option Int) :=
  match findArg n args with
  | none          => some none
  | some (.int v) => some (some v)
  | some _        => none

/-- A required numeric argument. -/
def requiredInt (n : ArgName) (args : List Arg) : Option Int :=
  match findArg n args with
  | some (.int v) => some v
  | _             => none

/-- A required byte-string argument. -/
def requiredBytes (n : ArgName) (args : List Arg) : Option Bytes :=
  match findArg n args with
  | some (.bytes b) => some b
  | _               => none

/-- The optional list of groups. -/
def optionalGroups (args : List Arg) : Option (Option (List GroupArg)) :=
  match findArg .groups args with
  | none              => some none
  | some (.groups gs) => some (some gs)
  | some _            => none

/-- Every argument's name is one of these and stands once. Log entry 9. -/
def onlyOnce (names : List ArgName) (args : List Arg) : Bool :=
  decide (args.map Arg.name).Nodup && args.all (fun a => names.contains a.name)

/-- The command that `SEND(operation, args)` names, if `args` are well-typed (R54, R57). The CPU operations' arguments are
not examined (R69, R70). -/
def commandOf (o : Operation) (args : List Arg) : Option Command :=
  match o with
  | .cpuCardRequest    => some .cpuCardRequest
  | .cpuGeneralCommand => some .cpuGeneralCommand
  | .reboot => if onlyOnce [] args then some .reboot else none
  | .handshake => if onlyOnce [] args then some .handshake else none
  | .beeperAndLed =>
    if onlyOnce [.beeperTime, .beeperCycle, .ledTime, .ledFlashCycle] args then do
      let bt ← optionalInt .beeperTime args
      let bc ← optionalInt .beeperCycle args
      let lt ← optionalInt .ledTime args
      let lf ← optionalInt .ledFlashCycle args
      beeperAndLedCommand bt bc lt lf
    else none
  | .cardSelectCancel =>
    if onlyOnce [.durationMs] args then (requiredInt .durationMs args).bind cardSelectCancelCommand else none
  | .cardPending =>
    if onlyOnce [.durationMs] args then (requiredInt .durationMs args).bind cardPendingCommand else none
  | .m1CardTestRequest =>
    if onlyOnce [.type] args then (requiredInt .type args).bind m1CardTestRequestCommand else none
  | .m1DownloadPasswordList =>
    if onlyOnce [.groups] args then (optionalGroups args).bind m1DownloadPasswordListCommand else none
  | .m1ReadContentByKey =>
    if onlyOnce [.block, .passwordType] args then do
      let block ← requiredInt .block args
      let pt ← requiredInt .passwordType args
      m1ReadContentByKeyCommand block pt
    else none
  | .m1WriteContentByKey =>
    if onlyOnce [.block, .passwordType, .content] args then do
      let block ← requiredInt .block args
      let pt ← requiredInt .passwordType args
      let content ← requiredBytes .content args
      m1WriteContentByKeyCommand block pt content
    else none
  | .m1ReadContentByCommand =>
    if onlyOnce [.block, .passwordType, .password] args then do
      let block ← requiredInt .block args
      let pt ← requiredInt .passwordType args
      let password ← requiredBytes .password args
      m1ReadContentByCommandCommand block pt password
    else none
  | .m1WriteContentByCommand =>
    if onlyOnce [.block, .passwordType, .password, .content] args then do
      let block ← requiredInt .block args
      let pt ← requiredInt .passwordType args
      let password ← requiredBytes .password args
      let content ← requiredBytes .content args
      m1WriteContentByCommandCommand block pt password content
    else none

end Sys2Proof.Machine
end

