-- ==== Sys2Proof/Machine/Commands.lean ====
section
/-! DEFINITION. The command catalog and `SEND` (42_commands.md). -/

namespace Sys2Proof.Machine

/-- The operation a command is of. -/
def commandOperation : Command → Operation
  | .reboot                          => .reboot
  | .beeperAndLed _ _ _ _            => .beeperAndLed
  | .handshake                       => .handshake
  | .cardSelectCancel _              => .cardSelectCancel
  | .cardPending _                   => .cardPending
  | .m1CardTestRequest _             => .m1CardTestRequest
  | .m1DownloadPasswordList _        => .m1DownloadPasswordList
  | .m1ReadContentByKey _ _          => .m1ReadContentByKey
  | .m1WriteContentByKey _ _ _       => .m1WriteContentByKey
  | .m1ReadContentByCommand _ _ _    => .m1ReadContentByCommand
  | .m1WriteContentByCommand _ _ _ _ => .m1WriteContentByCommand
  | .cpuCardRequest                  => .cpuCardRequest
  | .cpuGeneralCommand               => .cpuGeneralCommand

/-- One group of a password list: 8 bytes (R42, R64). -/
def groupBytes (g : PasswordGroup) : Bytes := [g.block, pwNum g.passwordType] ++ g.password.val

/-- The check `block > 255` (R65 to R68), before what follows it. -/
def checkBlock (block : Nat) (next : Except Status Bytes) : Except Status Bytes :=
  if block > 255 then .error (.validation .blockRange) else next

/-- The check `len(password) != 6` (R67, R68). -/
def checkPassword (password : Bytes) (next : Except Status Bytes) : Except Status Bytes :=
  if password.length ≠ 6 then .error (.validation .passwordLength) else next

/-- The check `len(content) != 16` (R66, R68). -/
def checkContent (content : Bytes) (next : Except Status Bytes) : Except Status Bytes :=
  if content.length ≠ 16 then .error (.validation .contentLength) else next

/-- The first two payload bytes of opcodes 0x22 to 0x25: `[block, num(pt)]` (R65 to R68). -/
def blockAndType (block : Nat) (pt : PwType) : Bytes := [BitVec.ofNat 8 block, pwNum pt]

/-- The catalog's checks and payload builders (R58 to R70), in the order of R104: the payload, or the status raised. -/
def buildPayload : Command → Except Status Bytes
  | .reboot => .ok []
  | .beeperAndLed bt bc lt lf => .ok (bigEndian bt ++ [bc] ++ littleEndian lt ++ [lf])
  | .handshake => .ok []
  | .cardSelectCancel d => .ok (bigEndian d)
  | .cardPending d => .ok (bigEndian d)
  | .m1CardTestRequest t => .ok [t]
  | .m1DownloadPasswordList none => .error (.validation .emptyList)
  | .m1DownloadPasswordList (some []) => .error (.validation .emptyList)
  | .m1DownloadPasswordList (some (g :: gs)) =>
    .ok (BitVec.ofNat 8 (g :: gs).length :: (g :: gs).flatMap groupBytes)
  | .m1ReadContentByKey block pt => checkBlock block (.ok (blockAndType block pt))
  | .m1WriteContentByKey block pt content =>
    checkBlock block (checkContent content (.ok (blockAndType block pt ++ content)))
  | .m1ReadContentByCommand block pt password =>
    checkBlock block (checkPassword password (.ok (blockAndType block pt ++ password)))
  | .m1WriteContentByCommand block pt password content =>
    checkBlock block
      (checkPassword password (checkContent content (.ok (blockAndType block pt ++ password ++ content))))
  | .cpuCardRequest => .error .notImplemented
  | .cpuGeneralCommand => .error .notImplemented

/-- `SEND` behind the interface's checks (R54): `CLOSED`, then what the catalog raises, else the next sequence value, the
frame, and its hand-over (R55). -/
def sendCommand (c : Command) (s : State) : Answer :=
  match s.session with
  | .closed => raise .closed s
  | .opened =>
    match buildPayload c with
    | .error st => raise st s
    | .ok p =>
      match packFrame (opcode (commandOperation c)) p (s.seq + 1) with
      | some f => .next (transmit f (s.seq + 1) s)
      | none   => refuse .payloadTooLong

/-- `SEND` with the operands' typing done (R54): `none` is the refusal `ARG_TYPE`, which comes first (R104). -/
def sendTyped (c : Option Command) (s : State) : Answer :=
  match c with
  | some c => sendCommand c s
  | none   => refuse .argType

/-! ### One meaning per row -/

/-- `SEND reboot()` (R58). -/
def execSendReboot (s : State) : Answer := sendCommand .reboot s

/-- `SEND beeperAndLed(...)` (R59). -/
def execSendBeeperAndLed (bt bc lt lf : Option Int) (s : State) : Answer :=
  sendTyped (beeperAndLedCommand bt bc lt lf) s

/-- `SEND handshake()` (R60). -/
def execSendHandshake (s : State) : Answer := sendCommand .handshake s

/-- `SEND cardSelectCancel(durationMs)` (R61). -/
def execSendCardSelectCancel (d : Int) (s : State) : Answer := sendTyped (cardSelectCancelCommand d) s

/-- `SEND cardPending(durationMs)` (R62). -/
def execSendCardPending (d : Int) (s : State) : Answer := sendTyped (cardPendingCommand d) s

/-- `SEND m1CardTestRequest(type)` (R63). -/
def execSendM1CardTestRequest (t : Int) (s : State) : Answer := sendTyped (m1CardTestRequestCommand t) s

/-- `SEND m1DownloadPasswordList(groups)` (R64). -/
def execSendM1DownloadPasswordList (gs : Option (List GroupArg)) (s : State) : Answer :=
  sendTyped (m1DownloadPasswordListCommand gs) s

/-- `SEND m1ReadContentByKey(block, passwordType)` (R65). -/
def execSendM1ReadContentByKey (block pt : Int) (s : State) : Answer :=
  sendTyped (m1ReadContentByKeyCommand block pt) s

/-- `SEND m1WriteContentByKey(block, passwordType, content)` (R66). -/
def execSendM1WriteContentByKey (block pt : Int) (content : Bytes) (s : State) : Answer :=
  sendTyped (m1WriteContentByKeyCommand block pt content) s

/-- `SEND m1ReadContentByCommand(block, passwordType, password)` (R67). -/
def execSendM1ReadContentByCommand (block pt : Int) (password : Bytes) (s : State) : Answer :=
  sendTyped (m1ReadContentByCommandCommand block pt password) s

/-- `SEND m1WriteContentByCommand(block, passwordType, password, content)` (R68). -/
def execSendM1WriteContentByCommand (block pt : Int) (password content : Bytes) (s : State) : Answer :=
  sendTyped (m1WriteContentByCommandCommand block pt password content) s

/-- `SEND cpuCardRequest(...)` (R69): the arguments are not examined. -/
def execSendCpuCardRequest (_args : List Arg) (s : State) : Answer := sendCommand .cpuCardRequest s

/-- `SEND cpuGeneralCommand(...)` (R70): the arguments are not examined. -/
def execSendCpuGeneralCommand (_args : List Arg) (s : State) : Answer := sendCommand .cpuGeneralCommand s

/-- `SEND(operation, args)` (R54): the selector first, then the arguments' types, then as the operation's command. -/
def execSend (selector : Byte) (args : List Arg) (s : State) : Answer :=
  match operationOf selector with
  | none   => refuse .noSuchOperation
  | some o => sendTyped (commandOf o args) s

end Sys2Proof.Machine
end

