-- ==== Sys2Proof/Decode.lean ====
section
/-! DEFINITION. From bytes to a transaction and back.

The CODE of a transaction is its row of spec/opcode_table.json: the kind code (30_encoding.md R45), the first five bytes
of the frame for a `SEND.*` row (R34, R41), the catalog opcode for the two CPU rows (R69, R70), the header or the mark for
the RX rows (R36, R38). An RX frame's operands stand as R36 lays them out. The spec gives the operands of the other rows no
byte form: theirs is the model's own (log entries 2 and 3), self-delimiting and with one spelling per value, so that every
operand the host can give, inside its type or outside, can be presented. -/

namespace Sys2Proof

open Machine

/-! ### Reading operands: each reader takes bytes and gives a value and the bytes left. -/

/-- One byte. -/
def getByte : Bytes → Except DecodeError (Byte × Bytes)
  | []      => .error .truncated
  | b :: bs => .ok (b, bs)

/-- `n` bytes. -/
def getExactly (n : Nat) (bs : Bytes) : Except DecodeError (Bytes × Bytes) :=
  if n ≤ bs.length then .ok (bs.take n, bs.drop n) else .error .truncated

/-- A natural number of any size: base-128 digits, lowest first, 128 added to every digit but the last. -/
def getNat : Bytes → Except DecodeError (Nat × Bytes)
  | []      => .error .truncated
  | b :: bs =>
    if b.toNat < 128 then .ok (b.toNat, bs)
    else do
      let (n, r) ← getNat bs
      if n = 0 then .error .overlong else .ok (b.toNat - 128 + 128 * n, r)

/-- The integer a natural number stands for: 0, -1, 1, -2, 2, … -/
def intOfNat (n : Nat) : Int := if n % 2 = 0 then Int.ofNat (n / 2) else Int.negSucc (n / 2)

/-- An integer of any size and sign. -/
def getInt (bs : Bytes) : Except DecodeError (Int × Bytes) := do
  let (n, r) ← getNat bs
  .ok (intOfNat n, r)

/-- A byte sequence: its length, then its bytes. -/
def getBytes (bs : Bytes) : Except DecodeError (Bytes × Bytes) := do
  let (n, r) ← getNat bs
  getExactly n r

/-- A value that may be unset: 00, or 01 and the value. -/
def getOptional {α : Type} (get : Bytes → Except DecodeError (α × Bytes)) (bs : Bytes) :
    Except DecodeError (Option α × Bytes) := do
  let (t, r) ← getByte bs
  if t = 0 then .ok (none, r)
  else if t = 1 then do
    let (v, r) ← get r
    .ok (some v, r)
  else .error .badTag

/-- `n` values, one after the other. -/
def getMany {α : Type} (get : Bytes → Except DecodeError (α × Bytes)) :
    Nat → Bytes → Except DecodeError (List α × Bytes)
  | 0,     bs => .ok ([], bs)
  | n + 1, bs => do
    let (v, r) ← get bs
    let (vs, r) ← getMany get n r
    .ok (v :: vs, r)

/-- A list: its length, then its values. -/
def getList {α : Type} (get : Bytes → Except DecodeError (α × Bytes)) (bs : Bytes) :
    Except DecodeError (List α × Bytes) := do
  let (n, r) ← getNat bs
  getMany get n r

/-- A password group: block, passwordType, password (the order of R42). -/
def getGroup (bs : Bytes) : Except DecodeError (GroupArg × Bytes) := do
  let (block, r) ← getInt bs
  let (passwordType, r) ← getInt r
  let (password, r) ← getBytes r
  .ok (⟨block, passwordType, password⟩, r)

/-- The argument names by number, in the order of `ArgName`. -/
def argNames : List ArgName :=
  [.beeperTime, .beeperCycle, .ledTime, .ledFlashCycle, .durationMs, .type, .groups, .block, .passwordType, .password,
   .content]

/-- An argument's name: its place in `argNames`. -/
def getArgName (bs : Bytes) : Except DecodeError (ArgName × Bytes) := do
  let (t, r) ← getByte bs
  match argNames[t.toNat]? with
  | some n => .ok (n, r)
  | none   => .error .badTag

/-- An argument's value: 00 and an integer, 01 and bytes, or 02 and groups. -/
def getArgVal (bs : Bytes) : Except DecodeError (ArgVal × Bytes) := do
  let (t, r) ← getByte bs
  if t = 0 then do
    let (v, r) ← getInt r
    .ok (.int v, r)
  else if t = 1 then do
    let (b, r) ← getBytes r
    .ok (.bytes b, r)
  else if t = 2 then do
    let (gs, r) ← getList getGroup r
    .ok (.groups gs, r)
  else .error .badTag

/-- A named argument. -/
def getArg (bs : Bytes) : Except DecodeError (Arg × Bytes) := do
  let (n, r) ← getArgName bs
  let (v, r) ← getArgVal r
  .ok (⟨n, v⟩, r)

/-! ### Reading a transaction -/

/-- The operands behind a `SEND.*` row's code. The two CPU operations have no frame, so no row of this form (R69, R70). -/
def getSendOperands : Operation → Bytes → Except DecodeError (Instr × Bytes)
  | .reboot, r => .ok (.sendReboot, r)
  | .handshake, r => .ok (.sendHandshake, r)
  | .beeperAndLed, r => do
    let (bt, r) ← getOptional getInt r
    let (bc, r) ← getOptional getInt r
    let (lt, r) ← getOptional getInt r
    let (lf, r) ← getOptional getInt r
    .ok (.sendBeeperAndLed bt bc lt lf, r)
  | .cardSelectCancel, r => do
    let (d, r) ← getInt r
    .ok (.sendCardSelectCancel d, r)
  | .cardPending, r => do
    let (d, r) ← getInt r
    .ok (.sendCardPending d, r)
  | .m1CardTestRequest, r => do
    let (t, r) ← getInt r
    .ok (.sendM1CardTestRequest t, r)
  | .m1DownloadPasswordList, r => do
    let (gs, r) ← getOptional (getList getGroup) r
    .ok (.sendM1DownloadPasswordList gs, r)
  | .m1ReadContentByKey, r => do
    let (block, r) ← getInt r
    let (pt, r) ← getInt r
    .ok (.sendM1ReadContentByKey block pt, r)
  | .m1WriteContentByKey, r => do
    let (block, r) ← getInt r
    let (pt, r) ← getInt r
    let (content, r) ← getBytes r
    .ok (.sendM1WriteContentByKey block pt content, r)
  | .m1ReadContentByCommand, r => do
    let (block, r) ← getInt r
    let (pt, r) ← getInt r
    let (password, r) ← getBytes r
    .ok (.sendM1ReadContentByCommand block pt password, r)
  | .m1WriteContentByCommand, r => do
    let (block, r) ← getInt r
    let (pt, r) ← getInt r
    let (password, r) ← getBytes r
    let (content, r) ← getBytes r
    .ok (.sendM1WriteContentByCommand block pt password content, r)
  | .cpuCardRequest, _ => .error .noSuchRow
  | .cpuGeneralCommand, _ => .error .noSuchRow

/-- A `SEND.*` row behind `FE FE 68 25`: the opcode byte names the operation (R34, R41). -/
def getSendRow (r : Bytes) : Except DecodeError (Instr × Bytes) := do
  let (op, r) ← getByte r
  match operationOf op with
  | some o => getSendOperands o r
  | none   => .error .noSuchRow

/-- The rest of an RX frame behind its header (R36): opcode, payloadLength big-endian, payload, sequence, checksum,
terminator. -/
def getRxFrame (r : Bytes) : Except DecodeError (Instr × Bytes) := do
  let (op, r) ← getByte r
  let (hi, r) ← getByte r
  let (lo, r) ← getByte r
  let (payload, r) ← getExactly (be16 hi lo) r
  let (seq, r) ← getByte r
  let (cs, r) ← getByte r
  let (t, r) ← getByte r
  .ok (.rxFrame op payload seq cs t, r)

/-- The operands of `SEND` (R45): the selector and the named arguments. -/
def getSend (r : Bytes) : Except DecodeError (Instr × Bytes) := do
  let (selector, r) ← getByte r
  let (args, r) ← getList getArg r
  .ok (.send selector args, r)

/-- The operands of `PACK` (R45). -/
def getPack (r : Bytes) : Except DecodeError (Instr × Bytes) := do
  let (op, r) ← getByte r
  let (payload, r) ← getBytes r
  let (seq, r) ← getByte r
  .ok (.pack op payload seq, r)

/-- The operands of `SUM` (R45). -/
def getSum (r : Bytes) : Except DecodeError (Instr × Bytes) := do
  let (bytes, r) ← getBytes r
  let (start, r) ← getNat r
  let (stop, r) ← getNat r
  .ok (.sum bytes start stop, r)

/-- The operand of `FEED` (R45). -/
def getFeed (r : Bytes) : Except DecodeError (Instr × Bytes) := do
  let (chunk, r) ← getBytes r
  .ok (.feed chunk, r)

/-- The bytes behind `head`, if the bytes begin with it. -/
def behind (head bs : Bytes) : Option Bytes :=
  if head.isPrefixOf bs then some (bs.drop head.length) else none

/-- The rows whose code is longer than one byte (spec/opcode_table.json): `SEND.*`, `RX.FRAME`, `RX.RESYNC_MARK`. -/
def getWideRow (bs : Bytes) : Except DecodeError (Instr × Bytes) :=
  match behind hdrIn bs with
  | some r => getRxFrame r
  | none =>
    match behind hdrOut bs with
    | some r => getSendRow r
    | none =>
      match behind resyncPat bs with
      | some r => .ok (.rxResyncMark, r)
      | none   => .error .noSuchRow

/-- The transaction the bytes begin with, and the bytes behind it. Total on any bytes; what is no row of the table is
rejected by name. -/
def decode (bs : Bytes) : Except DecodeError (Instr × Bytes) :=
  match bs with
  | [] => .error .truncated
  | k :: r =>
    if k = kindSend then getSend r
    else if k = kindPack then getPack r
    else if k = kindSum then getSum r
    else if k = kindFeed then getFeed r
    else if k = kindClose then .ok (.close, r)
    else if k = kindReset then .ok (.reset, r)
    else if k = opcode .cpuCardRequest then do
      let (args, r) ← getList getArg r
      .ok (.sendCpuCardRequest args, r)
    else if k = opcode .cpuGeneralCommand then do
      let (args, r) ← getList getArg r
      .ok (.sendCpuGeneralCommand args, r)
    else getWideRow bs

/-- The transaction that the bytes are, whole: one presented transaction holds one transaction and nothing behind it. -/
def decodeWhole (bs : Bytes) : Except DecodeError Instr :=
  match decode bs with
  | .error e         => .error e
  | .ok (i, [])      => .ok i
  | .ok (_, _ :: _)  => .error .surplus

/-! ### The encoder -/

/-- Base-128 digits of `n`, lowest first; `fuel` is any number above the count of digits. -/
def putNatFuel : Nat → Nat → Bytes
  | 0,        _ => []
  | fuel + 1, n =>
    if n < 128 then [BitVec.ofNat 8 n] else BitVec.ofNat 8 (128 + n % 128) :: putNatFuel fuel (n / 128)

/-- A natural number, as `getNat` reads it. -/
def putNat (n : Nat) : Bytes := putNatFuel (n + 1) n

/-- The natural number that stands for an integer, as `intOfNat` reads it. -/
def natOfInt : Int → Nat
  | .ofNat n   => 2 * n
  | .negSucc n => 2 * n + 1

/-- An integer, as `getInt` reads it. -/
def putInt (v : Int) : Bytes := putNat (natOfInt v)

/-- A byte sequence, as `getBytes` reads it. -/
def putBytes (b : Bytes) : Bytes := putNat b.length ++ b

/-- A value that may be unset, as `getOptional` reads it. -/
def putOptional {α : Type} (put : α → Bytes) : Option α → Bytes
  | none   => [0]
  | some v => 1 :: put v

/-- A list, as `getList` reads it. -/
def putList {α : Type} (put : α → Bytes) (vs : List α) : Bytes := putNat vs.length ++ vs.flatMap put

/-- A password group, as `getGroup` reads it. -/
def putGroup (g : GroupArg) : Bytes := putInt g.block ++ putInt g.passwordType ++ putBytes g.password

/-- An argument's name, as `getArgName` reads it. -/
def putArgName (n : ArgName) : Byte := BitVec.ofNat 8 (argNames.idxOf n)

/-- An argument's value, as `getArgVal` reads it. -/
def putArgVal : ArgVal → Bytes
  | .int v     => 0 :: putInt v
  | .bytes b   => 1 :: putBytes b
  | .groups gs => 2 :: putList putGroup gs

/-- A named argument, as `getArg` reads it. -/
def putArg (a : Arg) : Bytes := putArgName a.name :: putArgVal a.value

/-- The code of a `SEND.*` row: the first five bytes of the frame it makes (R34, R41). -/
def sendCode (o : Operation) : Bytes := hdrOut ++ [opcode o]

/-- The bytes of an RX frame with these fields (R36). -/
def rxFrameBytes (op : Byte) (payload : Bytes) (seq cs t : Byte) : Bytes :=
  hdrIn ++ [op] ++ bigEndian (lengthField payload.length) ++ payload ++ [seq, cs, t]

/-- The bytes of a transaction, from the same tables as `decode`. -/
def encode : Instr → Bytes
  | .sendReboot => sendCode .reboot
  | .sendBeeperAndLed bt bc lt lf =>
    sendCode .beeperAndLed ++ putOptional putInt bt ++ putOptional putInt bc ++ putOptional putInt lt
      ++ putOptional putInt lf
  | .sendHandshake => sendCode .handshake
  | .sendCardSelectCancel d => sendCode .cardSelectCancel ++ putInt d
  | .sendCardPending d => sendCode .cardPending ++ putInt d
  | .sendM1CardTestRequest t => sendCode .m1CardTestRequest ++ putInt t
  | .sendM1DownloadPasswordList gs => sendCode .m1DownloadPasswordList ++ putOptional (putList putGroup) gs
  | .sendM1ReadContentByKey block pt => sendCode .m1ReadContentByKey ++ putInt block ++ putInt pt
  | .sendM1WriteContentByKey block pt content =>
    sendCode .m1WriteContentByKey ++ putInt block ++ putInt pt ++ putBytes content
  | .sendM1ReadContentByCommand block pt password =>
    sendCode .m1ReadContentByCommand ++ putInt block ++ putInt pt ++ putBytes password
  | .sendM1WriteContentByCommand block pt password content =>
    sendCode .m1WriteContentByCommand ++ putInt block ++ putInt pt ++ putBytes password ++ putBytes content
  | .sendCpuCardRequest args => opcode .cpuCardRequest :: putList putArg args
  | .sendCpuGeneralCommand args => opcode .cpuGeneralCommand :: putList putArg args
  | .rxFrame op payload seq cs t => rxFrameBytes op payload seq cs t
  | .rxResyncMark => resyncPat
  | .send selector args => kindSend :: selector :: putList putArg args
  | .pack op payload seq => kindPack :: op :: (putBytes payload ++ [seq])
  | .sum bytes start stop => kindSum :: (putBytes bytes ++ putNat start ++ putNat stop)
  | .feed chunk => kindFeed :: putBytes chunk
  | .close => [kindClose]
  | .reset => [kindReset]

/-! ### The opcode table's words -/

/-- The `n` bytes of a number, the highest first. -/
def bytesHighFirst : Nat → Nat → Bytes
  | 0,     _ => []
  | n + 1, w => BitVec.ofNat 8 (w / 256 ^ n) :: bytesHighFirst n w

/-- The bytes of a table word in wire order. A one-byte code is that byte. The table writes a longer code with its first
byte on the wire as the number's HIGHEST byte (`0xFEFE682504` is `FE FE 68 25 04`); every such code begins with `FE` or `16`,
and a word whose highest byte is neither is read with its lowest byte first. Log entry 3. -/
def tableWordBytes (nbits w : Nat) : Bytes :=
  let bs := bytesHighFirst (nbits / 8) w
  match bs with
  | [_] => bs
  | b :: _ => if b = sync ∨ b = term then bs else bs.reverse
  | [] => []

/-- Zero bytes behind a table word: operands of zeros, as many as the longest operands of zeros take. -/
def zeroOperands : Bytes := List.replicate 16 0

/-- The bytes of the one transaction that a table word and operands of zeros begin with: what the transaction does not
take of the zeros is left out. -/
def tableTransaction (nbits w : Nat) : Bytes :=
  let bs := tableWordBytes nbits w ++ zeroOperands
  match decode bs with
  | .ok (_, r)  => bs.take (bs.length - r.length)
  | .error _    => bs

/-- The transaction `decode` reads from a table word whose further bits are 0. -/
def decodeTableWord (nbits w : Nat) : Option Instr :=
  match decode (tableWordBytes nbits w ++ zeroOperands) with
  | .ok (i, _) => some i
  | .error _   => none

end Sys2Proof
end

