-- ==== Sys2Proof/Machine/Decoder.lean ====
section
/-! DEFINITION. The stream decoder, header matcher and resynchronizer (43_stream_decoder.md). -/

namespace Sys2Proof.Machine

/-- The wait conditions that end a pass (R15, R71). -/
inductive Wait where
  /-- `WAIT_SHORT` (R72). -/
  | short
  /-- `WAIT_BODY` (R74). -/
  | body
  /-- `WAIT_RESYNC` (R81). -/
  | resync
  deriving DecidableEq, Repr

/-- What one iteration of the decode loop does (R71): the pass ends in a wait, or it drops bytes from the front, with or
without an event. -/
inductive Move where
  | wait (w : Wait)
  | drop (n : Nat) (e : Option Event)
  deriving DecidableEq, Repr

/-- The complete frame at the front, `11 + L` bytes with the terminator in place: it is dropped whether its checksum holds
or not (R75), and emitted or reported (R76, R77, R78). `none` is a read outside the buffer. -/
def frameMove (buf : Bytes) (len : Nat) : Option Move := do
  let f ← memRead buf 0 (11 + len)
  let check ← readByte f (9 + len)
  let payload ← memRead f 8 len
  if sumRange f 3 (9 + len) = check then some (.drop (11 + len) (some (.emit payload)))
  else some (.drop (11 + len) (some (.framing .badChecksum)))

/-- An iteration on a buffer of at least 11 bytes whose header matches: the length (R74), the terminator (R75, R79), the
frame. -/
def headerMove (buf : Bytes) : Option Move := do
  let hi ← readByte buf 6
  let lo ← readByte buf 7
  let len := be16 hi lo
  if buf.length < 11 + len then some (.wait .body)
  else do
    let t ← readByte buf (10 + len)
    if t = term then frameMove buf len
    else some (.drop (10 + len) (some (.framing .badTerminator)))

/-- The lowest start index of a complete resync mark in the bytes (R80, decision D8). -/
def findMark : Bytes → Option Nat
  | []      => none
  | b :: bs => if resyncPat.isPrefixOf (b :: bs) then some 0 else (findMark bs).map (· + 1)

/-- An iteration on a buffer of at least 11 bytes whose header does not match: everything up to and including the mark's
`16` goes, without an event (R80), or the pass waits (R81). -/
def resyncMove (buf : Bytes) : Move :=
  match findMark buf with
  | some k => .drop (k + 1) none
  | none   => .wait .resync

/-- One iteration of the decode loop (R71), decided by the bytes of `RXBUF` alone, from index 0 (R21). -/
def nextMove (buf : Bytes) : Option Move :=
  if buf.length ≤ 10 then some (.wait .short)
  else
    match memRead buf 0 5 with
    | none   => none
    | some h => if h = hdrIn then headerMove buf else some (resyncMove buf)

/-- The decode loop (R71): it ends at the first wait, with the buffer left and the events in order. `fuel` bounds its
iterations, and running out is a fault. -/
def decodeLoop : Nat → Bytes → Except Fault (Bytes × List Event)
  | 0,        _   => .error .passDidNotEnd
  | fuel + 1, buf =>
    match nextMove buf with
    | none            => .error .rxbufIndex
    | some (.wait _)  => .ok (buf, [])
    | some (.drop n e) =>
      match decodeLoop fuel (bufDrop n buf) with
      | .error f       => .error f
      | .ok (rest, es) => .ok (rest, e.toList ++ es)

/-- The decode pass: at most `len(RXBUF)` iterations that drop, and the one that waits (R82). -/
def decodePass (buf : Bytes) : Except Fault (Bytes × List Event) := decodeLoop (buf.length + 1) buf

/-- A chunk reaches the decoder (R71): `CLOSED` first (R88), then the capacity (R86), then the append and the pass. -/
def feedChunk (c : Bytes) (s : State) : Answer :=
  match s.session with
  | .closed => raise .closed s
  | .opened =>
    if overflows s.bufCap s.rxbuf c then refuse .bufOverflow
    else
      match decodePass (bufAppend s.rxbuf c) with
      | .error f      => .fault f
      | .ok (buf, es) => .next (receive buf es s)

/-! ### One meaning per row -/

/-- `FEED(chunk)` (R71). -/
def execFeed (c : Bytes) (s : State) : Answer := feedChunk c s

/-- An RX frame arrives as one chunk (R36, R73 to R79): the decoder takes its bytes. Log entry 4. -/
def execRxFrame (op : Byte) (payload : Bytes) (seq cs t : Byte) (s : State) : Answer :=
  if payload.length ≤ maxPayload then feedChunk (rxFrameBytes op payload seq cs t) s else refuse .noRxFrame

/-- The resync mark arrives as one chunk (R38, R80): the decoder takes its bytes. Log entry 4. -/
def execRxResyncMark (s : State) : Answer := feedChunk resyncPat s

end Sys2Proof.Machine
end

