-- ==== Sys2Proof/Machine/Session.lean ====
section
/-! DEFINITION. Session control (44_session.md). -/

namespace Sys2Proof.Machine

/-- `CLOSE` (R91): admitted in either session state; no event, no error about an incomplete frame. -/
def execClose (s : State) : Answer := .next (endSession s)

/-- `RESET` (R90): admitted in either session state. -/
def execReset (s : State) : Answer := .next (startSession s)

end Sys2Proof.Machine
end

