-- ==== Sys2Proof/Machine/Dispatch.lean ====
section
/-! DEFINITION. One arm per transaction, each one direct call of its meaning. -/

namespace Sys2Proof.Machine

def exec (i : Instr) (s : State) : Host.Outcome State Fault Refusal :=
  match i with
  | .sendReboot => Sys2Proof.Machine.execSendReboot s
  | .sendBeeperAndLed bt bc lt lf => Sys2Proof.Machine.execSendBeeperAndLed bt bc lt lf s
  | .sendHandshake => Sys2Proof.Machine.execSendHandshake s
  | .sendCardSelectCancel d => Sys2Proof.Machine.execSendCardSelectCancel d s
  | .sendCardPending d => Sys2Proof.Machine.execSendCardPending d s
  | .sendM1CardTestRequest t => Sys2Proof.Machine.execSendM1CardTestRequest t s
  | .sendM1DownloadPasswordList gs => Sys2Proof.Machine.execSendM1DownloadPasswordList gs s
  | .sendM1ReadContentByKey block pt => Sys2Proof.Machine.execSendM1ReadContentByKey block pt s
  | .sendM1WriteContentByKey block pt content => Sys2Proof.Machine.execSendM1WriteContentByKey block pt content s
  | .sendM1ReadContentByCommand block pt password => Sys2Proof.Machine.execSendM1ReadContentByCommand block pt password s
  | .sendM1WriteContentByCommand block pt password content => Sys2Proof.Machine.execSendM1WriteContentByCommand block pt password content s
  | .sendCpuCardRequest args => Sys2Proof.Machine.execSendCpuCardRequest args s
  | .sendCpuGeneralCommand args => Sys2Proof.Machine.execSendCpuGeneralCommand args s
  | .rxFrame op payload seq cs t => Sys2Proof.Machine.execRxFrame op payload seq cs t s
  | .rxResyncMark => Sys2Proof.Machine.execRxResyncMark s
  | .send selector args => Sys2Proof.Machine.execSend selector args s
  | .pack op payload seq => Sys2Proof.Machine.execPack op payload seq s
  | .sum bytes start stop => Sys2Proof.Machine.execSum bytes start stop s
  | .feed chunk => Sys2Proof.Machine.execFeed chunk s
  | .close => Sys2Proof.Machine.execClose s
  | .reset => Sys2Proof.Machine.execReset s

end Sys2Proof.Machine
end

