-- ==== Sys2Proof/Machine/Step.lean ====
section
/-! DEFINITION. One step: the block takes the oldest presented transaction and executes it (20_memory.md R27). With none
presented it waits, and nothing changes (44_session.md R92). Log entry 1. -/

namespace Sys2Proof.Machine

/-- One transaction, taken, decoded and executed whole (R27). -/
def step (s : State) : Host.Outcome State Fault Refusal :=
  match takeTransaction s with
  | none => .next s
  | some (b, t) =>
    match decodeWhole b with
    | .error e => .refused (.undecodable e)
    | .ok i    => exec i t

/-- `s` with the transaction of a table word and operands of zeros presented, so that the next step takes it. -/
def State.withFetchWord (s : State) (nbits w : Nat) : State := present (tableTransaction nbits w) s

end Sys2Proof.Machine
end

