-- ==== Sys2Proof/Machine/Flags.lean ====
section
/-! DEFINITION. The block has no flags (10_state.md R20). What a host reads in their place are the codes of
60_exceptions.md: status codes, reason codes and event codes. -/

namespace Sys2Proof.Machine

/-- The ValidationError reason codes (R96). -/
def Reason.code : Reason → Nat
  | .blockRange     => 1
  | .passwordLength => 2
  | .contentLength  => 3
  | .emptyList      => 4

/-- The event sub-codes of FRAMING (R98). -/
def Framing.code : Framing → Nat
  | .badTerminator => 1
  | .badChecksum   => 2

/-- The status codes (R95). -/
def Status.code : Status → Nat
  | .ok             => 0
  | .validation _   => 1
  | .notImplemented => 2
  | .framing _      => 3
  | .transport      => 4
  | .closed         => 5

/-- The status of a result (R20, R95). -/
def Result.status : Result → Status
  | .okFrame _  => .ok
  | .okValue _  => .ok
  | .okEvents _ => .ok
  | .ok         => .ok
  | .raised st  => st

/-- The status under which an event is reported: `EMIT` under OK, `FRAMING(kind)` under code 3 (R95, R98). -/
def Event.status : Event → Status
  | .emit _       => .ok
  | .framing kind => .framing kind

end Sys2Proof.Machine
end

