-- ==== Sys2Proof/WellFormed.lean ====
section
/-! DEFINITION. When a transaction is well-formed: every argument lies in its type (42_commands.md R57), and the
conditions under which the interface admits it hold (60_exceptions.md R101), read off the spec's tables and not off the
machine. `BUF_OVERFLOW`, the one refusal that depends on the state, is not here. -/

namespace Sys2Proof

open Machine

/-- A number in the type u8. -/
def isU8 (v : Int) : Bool := 0 ≤ v && v ≤ 255
/-- A number in the type u16. -/
def isU16 (v : Int) : Bool := 0 ≤ v && v ≤ 65535
/-- A number in the type Nat. -/
def isNat (v : Int) : Bool := 0 ≤ v
/-- A number that names a `PwType`: A = 0, B = 1, NoChange = 2 (R42). -/
def isPwType (v : Int) : Bool := v == 0 || v == 1 || v == 2

/-- An optional argument: unset, or in its type. -/
def unsetOr (p : Int → Bool) : Option Int → Bool
  | none   => true
  | some v => p v

/-- A PasswordGroup of R57: `block: u8`, `passwordType: PwType`, `password`: exactly 6 bytes. -/
def GroupArg.wellFormed (g : GroupArg) : Bool :=
  isU8 g.block && isPwType g.passwordType && g.password.length == 6

/-- `groups` of R57: absent, or at most 255 PasswordGroups. -/
def groupsWellFormed : Option (List GroupArg) → Bool
  | none    => true
  | some gs => gs.length ≤ 255 && gs.all GroupArg.wellFormed

/-- The beeperAndLed rule of R57 and R101: each argument unset or in its type, and where `beeperTime` is set and nonzero
none of the other three unset. -/
def beeperWellFormed (bt bc lt lf : Option Int) : Bool :=
  unsetOr isU16 bt && unsetOr isU8 bc && unsetOr isU16 lt && unsetOr isU8 lf
    && (bt == none || bt == some 0 || (bc.isSome && lt.isSome && lf.isSome))

/-- A named argument's value lies in the type R57 gives its name. -/
def Arg.wellFormed (a : Arg) : Bool :=
  match a.name, a.value with
  | .beeperTime,    .int v     => isU16 v
  | .beeperCycle,   .int v     => isU8 v
  | .ledTime,       .int v     => isU16 v
  | .ledFlashCycle, .int v     => isU8 v
  | .durationMs,    .int v     => isU16 v
  | .type,          .int v     => isU8 v
  | .groups,        .groups gs => groupsWellFormed (some gs)
  | .block,         .int v     => isNat v
  | .passwordType,  .int v     => isPwType v
  | .password,      .bytes _   => true
  | .content,       .bytes _   => true
  | _,              _          => false

/-- The arguments an operation must be given, and those it may be given (R57 to R68). The CPU operations do not examine
theirs (R69, R70) and are not asked. -/
def sendArguments : Operation → List ArgName × List ArgName
  | .reboot                  => ([], [])
  | .handshake               => ([], [])
  | .beeperAndLed            => ([], [.beeperTime, .beeperCycle, .ledTime, .ledFlashCycle])
  | .cardSelectCancel        => ([.durationMs], [])
  | .cardPending             => ([.durationMs], [])
  | .m1CardTestRequest       => ([.type], [])
  | .m1DownloadPasswordList  => ([], [.groups])
  | .m1ReadContentByKey      => ([.block, .passwordType], [])
  | .m1WriteContentByKey     => ([.block, .passwordType, .content], [])
  | .m1ReadContentByCommand  => ([.block, .passwordType, .password], [])
  | .m1WriteContentByCommand => ([.block, .passwordType, .password, .content], [])
  | .cpuCardRequest          => ([], [])
  | .cpuGeneralCommand       => ([], [])

/-- `beeperTime` of a named-argument list is unset or zero. -/
def beeperTimeUnsetOrZero (args : List Arg) : Bool :=
  args.all (fun a => a.name != .beeperTime || a.value == .int 0)

/-- The arguments of `SEND(operation, args)` are well-typed (R54, R57): no name twice, each name one of the operation's,
none of the required ones missing, each value in its type, and the beeperAndLed rule of R101. -/
def sendWellFormed (o : Operation) (args : List Arg) : Bool :=
  match o with
  | .cpuCardRequest    => true
  | .cpuGeneralCommand => true
  | _ =>
    let names := args.map Arg.name
    let (required, optional) := sendArguments o
    decide names.Nodup && names.all (fun n => n ∈ required ++ optional) && required.all (fun n => n ∈ names)
      && args.all Arg.wellFormed
      && (o != .beeperAndLed || beeperTimeUnsetOrZero args || optional.all (fun n => n ∈ names))

/-- The interface admits the transaction, whatever the state (R57, R101); an RX frame's payload fits its length field
(R36). -/
def Instr.wellFormed : Instr → Bool
  | .sendReboot => true
  | .sendBeeperAndLed bt bc lt lf => beeperWellFormed bt bc lt lf
  | .sendHandshake => true
  | .sendCardSelectCancel d => isU16 d
  | .sendCardPending d => isU16 d
  | .sendM1CardTestRequest t => isU8 t
  | .sendM1DownloadPasswordList gs => groupsWellFormed gs
  | .sendM1ReadContentByKey block pt => isNat block && isPwType pt
  | .sendM1WriteContentByKey block pt _ => isNat block && isPwType pt
  | .sendM1ReadContentByCommand block pt _ => isNat block && isPwType pt
  | .sendM1WriteContentByCommand block pt _ _ => isNat block && isPwType pt
  | .sendCpuCardRequest _ => true
  | .sendCpuGeneralCommand _ => true
  | .rxFrame _ payload _ _ _ => payload.length ≤ maxPayload
  | .rxResyncMark => true
  | .send selector args =>
    match operationOf selector with
    | some o => sendWellFormed o args
    | none   => false
  | .pack _ payload _ => payload.length ≤ maxPayload
  | .sum bytes start stop => start ≤ stop && stop ≤ bytes.length
  | .feed _ => true
  | .close => true
  | .reset => true

/-- A transaction the byte form can hold: an RX frame's length field has 16 bits (R36); nothing else is bounded. -/
def Instr.encodable : Instr → Bool
  | .rxFrame _ payload _ _ _ => payload.length ≤ maxPayload
  | _ => true

end Sys2Proof
end

