-- ==== Sys2Proof/Safety.lean ====
section
/-! DEFINITION. The terms the claims use: frames and sums written out from the spec's tables (not from the machine's own
functions), the states a transaction can end in, the wait conditions, and the invariant of the block. -/

namespace Sys2Proof.Safety

open Machine

/-! ### Sums and frames, from the tables of 30_encoding.md -/

/-- `(sum of the bytes) mod 256`, reduced once at the end (40_checksum.md R47). -/
def sumMod256 (b : Bytes) : Byte := BitVec.ofNat 8 (b.map BitVec.toNat).sum

/-- The high byte of a number below 65536. -/
def highByte (n : Nat) : Byte := BitVec.ofNat 8 (n / 256)

/-- The low byte of a number. -/
def lowByte (n : Nat) : Byte := BitVec.ofNat 8 (n % 256)

/-- The TX frame of R34 and R51. -/
def txFrame (op : Byte) (p : Bytes) (s : Byte) : Bytes :=
  let summed := [0x68, 0x25, op, highByte p.length, lowByte p.length] ++ p ++ [s]
  [0xFE, 0xFE] ++ summed ++ [sumMod256 summed, 0x16]

/-- The bytes of an RX frame (R36) with `cs` at the checksum's place and `t` at the terminator's. -/
def rxBytes (op : Byte) (p : Bytes) (s cs t : Byte) : Bytes :=
  [0xFE, 0xFE, 0xFE, 0x68, 0x26, op, highByte p.length, lowByte p.length] ++ p ++ [s, cs, t]

/-- The checksum R36 and R76 require of an RX frame. -/
def rxChecksum (op : Byte) (p : Bytes) (s : Byte) : Byte :=
  sumMod256 ([0x68, 0x26, op, highByte p.length, lowByte p.length] ++ p ++ [s])

/-- A well-formed RX frame: `pack_in` of 90_conflicts.md C1. -/
def packIn (op : Byte) (p : Bytes) (s : Byte) : Bytes := rxBytes op p s (rxChecksum op p s) 0x16

/-- A frame of the TX format. -/
def IsTxFrame (f : Bytes) : Prop := ∃ op p s, p.length ≤ 65535 ∧ f = txFrame op p s

/-! ### How a transaction ends -/

/-- `s` after a transaction whose only effect is its result. -/
def withResult (s : State) (r : Result) : State := { s with result := some r }

/-- `s` after a transaction that ended in a non-OK status. -/
def raised (s : State) (st : Status) : State := withResult s (.raised st)

/-- `s` after a successful `SEND` of the frame `f` (R55). -/
def sent (s : State) (f : Bytes) : State :=
  { s with seq := s.seq + 1, txout := s.txout ++ [f], result := some (.okFrame f) }

/-- `s` after a `FEED` pass that left the buffer `b` and returned the events `es` (R71). -/
def received (s : State) (b : Bytes) (es : List Event) : State :=
  { s with rxbuf := b, rxout := s.rxout ++ es, result := some (.okEvents es) }

/-- The `SEND` rows of the table. -/
def isSend : Instr → Bool
  | .sendReboot => true
  | .sendBeeperAndLed _ _ _ _ => true
  | .sendHandshake => true
  | .sendCardSelectCancel _ => true
  | .sendCardPending _ => true
  | .sendM1CardTestRequest _ => true
  | .sendM1DownloadPasswordList _ => true
  | .sendM1ReadContentByKey _ _ => true
  | .sendM1WriteContentByKey _ _ _ => true
  | .sendM1ReadContentByCommand _ _ _ => true
  | .sendM1WriteContentByCommand _ _ _ _ => true
  | .sendCpuCardRequest _ => true
  | .sendCpuGeneralCommand _ => true
  | .rxFrame _ _ _ _ _ => false
  | .rxResyncMark => false
  | .send _ _ => true
  | .pack _ _ _ => false
  | .sum _ _ _ => false
  | .feed _ => false
  | .close => false
  | .reset => false

/-- The operation a `SEND` transaction names, if it names one of the catalog. -/
def sendOperation : Instr → Option Operation
  | .sendReboot => some .reboot
  | .sendBeeperAndLed _ _ _ _ => some .beeperAndLed
  | .sendHandshake => some .handshake
  | .sendCardSelectCancel _ => some .cardSelectCancel
  | .sendCardPending _ => some .cardPending
  | .sendM1CardTestRequest _ => some .m1CardTestRequest
  | .sendM1DownloadPasswordList _ => some .m1DownloadPasswordList
  | .sendM1ReadContentByKey _ _ => some .m1ReadContentByKey
  | .sendM1WriteContentByKey _ _ _ => some .m1WriteContentByKey
  | .sendM1ReadContentByCommand _ _ _ => some .m1ReadContentByCommand
  | .sendM1WriteContentByCommand _ _ _ _ => some .m1WriteContentByCommand
  | .sendCpuCardRequest _ => some .cpuCardRequest
  | .sendCpuGeneralCommand _ => some .cpuGeneralCommand
  | .rxFrame _ _ _ _ _ => none
  | .rxResyncMark => none
  | .send selector _ => operationOf selector
  | .pack _ _ _ => none
  | .sum _ _ _ => none
  | .feed _ => none
  | .close => none
  | .reset => none

/-- The bytes a transaction brings to the decoder: `FEED`'s chunk, an arriving frame, an arriving mark. -/
def arrival : Instr → Option Bytes
  | .feed c => some c
  | .rxFrame op p s cs t => some (rxBytes op p s cs t)
  | .rxResyncMark => some [0x16, 0xFE, 0xFE, 0xFE, 0x68, 0x26]
  | .sendReboot => none
  | .sendBeeperAndLed _ _ _ _ => none
  | .sendHandshake => none
  | .sendCardSelectCancel _ => none
  | .sendCardPending _ => none
  | .sendM1CardTestRequest _ => none
  | .sendM1DownloadPasswordList _ => none
  | .sendM1ReadContentByKey _ _ => none
  | .sendM1WriteContentByKey _ _ _ => none
  | .sendM1ReadContentByCommand _ _ _ => none
  | .sendM1WriteContentByCommand _ _ _ _ => none
  | .sendCpuCardRequest _ => none
  | .sendCpuGeneralCommand _ => none
  | .send _ _ => none
  | .pack _ _ _ => none
  | .sum _ _ _ => none
  | .close => none
  | .reset => none

/-- The decoder takes a chunk of `n` bytes: the session is open and the buffer has room (R71, R86, R88). -/
def Admits (s : State) (n : Nat) : Prop :=
  s.session = .opened ∧ ∀ cap, s.bufCap = some cap → s.rxbuf.length + n ≤ cap

/-- The refusal an ill-formed transaction meets (R101). -/
def refusalOf : Instr → Refusal
  | .send selector _ => if (operationOf selector).isSome then .argType else .noSuchOperation
  | .pack _ _ _ => .payloadTooLong
  | .sum _ _ _ => .sumRange
  | .rxFrame _ _ _ _ _ => .noRxFrame
  | .sendReboot => .argType
  | .sendBeeperAndLed _ _ _ _ => .argType
  | .sendHandshake => .argType
  | .sendCardSelectCancel _ => .argType
  | .sendCardPending _ => .argType
  | .sendM1CardTestRequest _ => .argType
  | .sendM1DownloadPasswordList _ => .argType
  | .sendM1ReadContentByKey _ _ => .argType
  | .sendM1WriteContentByKey _ _ _ => .argType
  | .sendM1ReadContentByCommand _ _ _ => .argType
  | .sendM1WriteContentByCommand _ _ _ _ => .argType
  | .sendCpuCardRequest _ => .argType
  | .sendCpuGeneralCommand _ => .argType
  | .rxResyncMark => .bufOverflow
  | .feed _ => .bufOverflow
  | .close => .argType
  | .reset => .argType

/-- The reasons for which an operation's `SEND` can raise VALIDATION (the last column of R96). -/
def reasonsOf : Operation → List Reason
  | .m1DownloadPasswordList  => [.emptyList]
  | .m1ReadContentByKey      => [.blockRange]
  | .m1WriteContentByKey     => [.blockRange, .contentLength]
  | .m1ReadContentByCommand  => [.blockRange, .passwordLength]
  | .m1WriteContentByCommand => [.blockRange, .passwordLength, .contentLength]
  | .reboot                  => []
  | .beeperAndLed            => []
  | .handshake               => []
  | .cpuCardRequest          => []
  | .cpuGeneralCommand       => []
  | .cardSelectCancel        => []
  | .cardPending             => []
  | .m1CardTestRequest       => []

/-! ### The wait conditions of R15 -/

/-- `HDR_IN` stands at index 0. -/
abbrev HasHeader (b : Bytes) : Prop := b.take 5 = [0xFE, 0xFE, 0xFE, 0x68, 0x26]

/-- A complete resync mark starts at index `k`. -/
abbrev MarkAt (b : Bytes) (k : Nat) : Prop := (b.drop k).take 6 = [0x16, 0xFE, 0xFE, 0xFE, 0x68, 0x26]

/-- The length the bytes 6 and 7 give, big-endian (R74); of a shorter buffer nothing is asked. -/
def claimedLength (b : Bytes) : Nat := (b.getD 6 0).toNat * 256 + (b.getD 7 0).toNat

/-- `WAIT_SHORT`: `len(RXBUF) <= 10`. -/
def WaitShort (b : Bytes) : Prop := b.length ≤ 10

/-- `WAIT_BODY`: the header matches and `len(RXBUF) < 11 + L`, on 11 bytes or more. -/
def WaitBody (b : Bytes) : Prop := 11 ≤ b.length ∧ HasHeader b ∧ b.length < 11 + claimedLength b

/-- `WAIT_RESYNC`: 11 bytes or more, no header, no resync mark inside. -/
def WaitResync (b : Bytes) : Prop := 11 ≤ b.length ∧ ¬ HasHeader b ∧ ∀ k, ¬ MarkAt b k

/-- The buffer is in one of the wait conditions (R15). -/
def Waiting (b : Bytes) : Prop := WaitShort b ∨ WaitBody b ∨ WaitResync b

/-! ### The invariant of the block -/

/-- What holds of the block between transactions: the decoder waits (R15), a closed session holds no bytes (R91), the
buffer is within its capacity (R14), and every frame handed over is a TX frame (R34). -/
structure Sound (s : State) : Prop where
  waiting : Waiting s.rxbuf
  closedHoldsNothing : s.session = .closed → s.rxbuf = []
  withinCapacity : ∀ cap, s.bufCap = some cap → s.rxbuf.length ≤ cap
  framesOut : ∀ f ∈ s.txout, IsTxFrame f

/-! ### Runs and changed states -/

/-- The answer with its next state changed; a stop stays the stop it is. -/
def mapNext (f : State → State) : Answer → Answer
  | .next t    => .next (f t)
  | .fault e   => .fault e
  | .refused r => .refused r

/-- The transactions `is`, one after the other. -/
def runAll : List Instr → State → Answer
  | [],      s => .next s
  | i :: is, s =>
    match exec i s with
    | .next t    => runAll is t
    | .fault f   => .fault f
    | .refused r => .refused r

/-- The results of those transactions of a run that are on a path, in order, up to where the run stops. -/
def pathResults (path : Instr → Bool) : List Instr → State → List (Option Result)
  | [],      _ => []
  | i :: is, s =>
    match exec i s with
    | .next t    => if path i then t.result :: pathResults path is t else pathResults path is t
    | .fault _   => []
    | .refused _ => []

end Sys2Proof.Safety
end

