-- ==== Sys2Proof/Certificates/Slice0/Obligations.lean ====
section
/-! DEFINITION. The statements for the provers, one definition each; OBLIGATIONS.json lists them in this order. -/

open Sys2Proof Sys2Proof.Machine Sys2Proof.Safety

/-! ### Stepping, decoding and encoding -/

/-- R27: the oldest presented transaction is executed whole, on the state without it. The queue of presented transactions is
the model's own (log entry 1). -/
def Obligations.StepRunsTheDecodedTransaction : Prop :=
  ∀ (s : State) (b : Bytes) (rest : List Bytes) (i : Instr),
    s.pending = b :: rest → decodeWhole b = .ok i → step s = exec i { s with pending := rest }

/-- R92: with nothing presented the block waits. Bytes that are no transaction are refused by name. The model's choice (log
entries 1 and 2). -/
def Obligations.StepWaitsOrRefusesUndecodable : Prop :=
  (∀ s : State, s.pending = [] → step s = .next s) ∧
  (∀ (s : State) (b : Bytes) (rest : List Bytes) (e : DecodeError),
    s.pending = b :: rest → decodeWhole b = .error e → step s = .refused (.undecodable e))

/-- Codes of spec/opcode_table.json written out: kind codes (R45), catalog opcodes 07 and 08 (R69, R70), frame heads (R34,
R36) and the mark (R38). The operand bytes behind them are the model's (log entry 2), but for the RX frame's. -/
def Obligations.TableCodesDecode : Prop :=
  decode [0x01, 0x06, 0x00] = .ok (.send 0x06 [], []) ∧
  decode [0x02, 0x22, 0x02, 0xFF, 0x00, 0x05] = .ok (.pack 0x22 [0xFF, 0x00] 0x05, []) ∧
  decode [0x03, 0x01, 0xA5, 0x00, 0x01] = .ok (.sum [0xA5] 0 1, []) ∧
  decode [0x04, 0x01, 0x16] = .ok (.feed [0x16], []) ∧
  decode [0x05] = .ok (.close, []) ∧
  decode [0x06] = .ok (.reset, []) ∧
  decode [0x07, 0x00] = .ok (.sendCpuCardRequest [], []) ∧
  decode [0x08, 0x00] = .ok (.sendCpuGeneralCommand [], []) ∧
  decode [0xFE, 0xFE, 0x68, 0x25, 0x04] = .ok (.sendReboot, []) ∧
  decode [0xFE, 0xFE, 0x68, 0x25, 0x06] = .ok (.sendHandshake, []) ∧
  decode [0xFE, 0xFE, 0xFE, 0x68, 0x26, 0x22, 0x00, 0x02, 0x11, 0x22, 0x02, 0xE7, 0x16]
    = .ok (.rxFrame 0x22 [0x11, 0x22] 0x02 0xE7 0x16, []) ∧
  decode [0x16, 0xFE, 0xFE, 0xFE, 0x68, 0x26] = .ok (.rxResyncMark, [])

/-- Every transaction, with every operand the host can give, comes back from its bytes, whatever follows them. An RX frame's
payload is bounded by its 16-bit length field (R36); nothing else is. Operand bytes: log entry 2. -/
def Obligations.DecodeOfEncode : Prop :=
  ∀ (i : Instr) (rest : Bytes), i.encodable = true → decode (encode i ++ rest) = .ok (i, rest)

/-- No two spellings: bytes that decode are the encoding of what they decode to. Operand bytes: log entry 2. -/
def Obligations.EncodeOfDecode : Prop :=
  ∀ (bs : Bytes) (i : Instr) (rest : Bytes),
    decode bs = .ok (i, rest) → bs = encode i ++ rest ∧ i.encodable = true

/-! ### SUM and PACK -/

/-- R47: the sum of the range, reduced mod 256, in either session state, and no other effect. The refusal of a range
outside the bytes is the spec's own decision D23 (log entry 22), the admission in either session state its decision D24 (log
entry 23). -/
def Obligations.SumAddsTheRange : Prop :=
  ∀ (s : State) (b : Bytes) (start stop : Nat),
    (start ≤ stop → stop ≤ b.length →
      exec (.sum b start stop) s = .next (withResult s (.okValue (sumMod256 ((b.drop start).take (stop - start)))))) ∧
    (stop < start ∨ b.length < stop → exec (.sum b start stop) s = .refused .sumRange)

/-- R49 (derived by the spec from R47): split, order and extension of `SUM`, for every range inside the bytes. -/
def Obligations.SumLaws : Prop :=
  (∀ (b : Bytes) (a m c : Nat), a ≤ m → m ≤ c → c ≤ b.length →
    sumRange b a c = sumRange b a m + sumRange b m c) ∧
  (∀ (b b' : Bytes) (a c a' c' : Nat), a ≤ c → c ≤ b.length → a' ≤ c' → c' ≤ b'.length →
    ((b.drop a).take (c - a)).Perm ((b'.drop a').take (c' - a')) → sumRange b a c = sumRange b' a' c') ∧
  (∀ (b : Bytes) (a c : Nat) (x : Byte), a ≤ c → c ≤ b.length →
    (b[c]? = some x → sumRange b a (c + 1) = sumRange b a c + x) ∧
    sumRange (b.take c ++ [x]) a (c + 1) = sumRange b a c + x)

/-- R50 with R34 and R52: the TX frame of `op`, `p`, `s`, byte for byte, in either session state, and no other effect. That
`PACK` is admitted in either session state is the spec's own decision D24 (log entry 23). -/
def Obligations.PackBuildsTheTxFrame : Prop :=
  ∀ (s : State) (op : Byte) (p : Bytes) (q : Byte), p.length ≤ 65535 →
    exec (.pack op p q) s = .next (withResult s (.okFrame (txFrame op p q)))

/-- R53 (derived by the spec): what holds of every frame `PACK` gives, clauses (a) to (h) and (j). -/
def Obligations.PackFrameProperties : Prop :=
  ∀ (s t : State) (op : Byte) (p : Bytes) (q : Byte) (f : Bytes),
    exec (.pack op p q) s = .next t → t.result = some (.okFrame f) →
      f.length = 10 + p.length ∧
      f.take 4 = [0xFE, 0xFE, 0x68, 0x25] ∧
      f[f.length - 1]? = some 0x16 ∧
      (∃ c : Byte, f[f.length - 2]? = some c ∧ exec (.sum f 2 (f.length - 2)) s = .next (withResult s (.okValue c))) ∧
      claimedLength (0 :: f) = p.length ∧
      (f.drop 7).take p.length = p ∧
      f[4]? = some op ∧
      f[7 + p.length]? = some q ∧
      ¬ HasHeader f

/-- R53 (i) (derived by the spec): two different triples never give one frame. -/
def Obligations.PackIsInjective : Prop :=
  ∀ (s : State) (op op' : Byte) (p p' : Bytes) (q q' : Byte), p.length ≤ 65535 → p'.length ≤ 65535 →
    exec (.pack op p q) s = exec (.pack op' p' q') s → op = op' ∧ p = p' ∧ q = q'

/-! ### SEND: one statement per command, in an open session -/

/-- R58 and R60: the whole frame, with the checksums `0x91 + s` and `0x93 + s`. -/
def Obligations.RebootAndHandshakeFrames : Prop :=
  ∀ s : State, s.session = .opened →
    exec .sendReboot s
      = .next (sent s [0xFE, 0xFE, 0x68, 0x25, 0x04, 0x00, 0x00, s.seq + 1, 0x91 + (s.seq + 1), 0x16]) ∧
    exec .sendHandshake s
      = .next (sent s [0xFE, 0xFE, 0x68, 0x25, 0x06, 0x00, 0x00, s.seq + 1, 0x93 + (s.seq + 1), 0x16])

/-- R59 with every argument set and `beeperTime` nonzero: `beeperTime` big-endian, `ledTime` little-endian. -/
def Obligations.BeeperAndLedEncodesItsArguments : Prop :=
  ∀ (s : State) (bt bc lt lf : Nat), s.session = .opened → 0 < bt → bt ≤ 65535 → bc ≤ 255 → lt ≤ 65535 → lf ≤ 255 →
    exec (.sendBeeperAndLed (some bt) (some bc) (some lt) (some lf)) s
      = .next (sent s (txFrame 0x05
          [highByte bt, lowByte bt, BitVec.ofNat 8 bc, lowByte lt, highByte lt, BitVec.ofNat 8 lf] (s.seq + 1)))

/-- R59 with `beeperTime` unset or zero: all four arguments are replaced, one frame goes out, and `SEQ` advances once. That
all four are replaced is the spec's own decision D5 (log entry 14), and that `SEQ` advances once is its decision D6 (log
entry 15). -/
def Obligations.BeeperAndLedSubstitutesDefaults : Prop :=
  ∀ (s : State) (bt bc lt lf : Option Int), s.session = .opened → bt = none ∨ bt = some 0 →
    unsetOr isU8 bc = true → unsetOr isU16 lt = true → unsetOr isU8 lf = true →
    exec (.sendBeeperAndLed bt bc lt lf) s
      = .next (sent s (txFrame 0x05 [0x02, 0x00, 0x80, 0x00, 0x04, 0x80] (s.seq + 1)))

/-- R61 and R62: the duration big-endian. -/
def Obligations.DurationCommandFrames : Prop :=
  ∀ (s : State) (d : Nat), s.session = .opened → d ≤ 65535 →
    exec (.sendCardSelectCancel d) s = .next (sent s (txFrame 0x09 [highByte d, lowByte d] (s.seq + 1))) ∧
    exec (.sendCardPending d) s = .next (sent s (txFrame 0x0A [highByte d, lowByte d] (s.seq + 1)))

/-- R63: any byte, verbatim. -/
def Obligations.CardTestRequestFrame : Prop :=
  ∀ (s : State) (t : Nat), s.session = .opened → t ≤ 255 →
    exec (.sendM1CardTestRequest t) s = .next (sent s (txFrame 0x20 [BitVec.ofNat 8 t] (s.seq + 1)))

/-- R64: the count and 8 bytes a group, in list order; an empty or absent list is VALIDATION(EMPTY_LIST), which changes
nothing else (R56). That `SEQ` stays there is the spec's own decision D6 (log entry 15). -/
def Obligations.PasswordListFrame : Prop :=
  ∀ s : State, s.session = .opened →
    (∀ gs : List GroupArg, gs ≠ [] → groupsWellFormed (some gs) = true →
      exec (.sendM1DownloadPasswordList (some gs)) s
        = .next (sent s (txFrame 0x21
            (BitVec.ofNat 8 gs.length ::
              gs.flatMap (fun g => [BitVec.ofInt 8 g.block, BitVec.ofInt 8 g.passwordType] ++ g.password))
            (s.seq + 1)))) ∧
    exec (.sendM1DownloadPasswordList (some [])) s = .next (raised s (.validation .emptyList)) ∧
    exec (.sendM1DownloadPasswordList none) s = .next (raised s (.validation .emptyList))

/-- R65: block and password type, or VALIDATION(BLOCK_RANGE), which changes nothing else (R56). That `SEQ` stays there is the
spec's own decision D6 (log entry 15). -/
def Obligations.ReadByKeyFrame : Prop :=
  ∀ (s : State) (block pt : Nat), s.session = .opened → pt ≤ 2 →
    exec (.sendM1ReadContentByKey block pt) s
      = if 255 < block then .next (raised s (.validation .blockRange))
        else .next (sent s (txFrame 0x22 [BitVec.ofNat 8 block, BitVec.ofNat 8 pt] (s.seq + 1)))

/-- R66: block, password type and 16 content bytes, or the first failing check. That the block is checked first is the
spec's own decision D7 (log entry 16), and that a failing check leaves `SEQ` (R56) its decision D6 (log entry 15). -/
def Obligations.WriteByKeyFrame : Prop :=
  ∀ (s : State) (block pt : Nat) (content : Bytes), s.session = .opened → pt ≤ 2 →
    exec (.sendM1WriteContentByKey block pt content) s
      = if 255 < block then .next (raised s (.validation .blockRange))
        else if content.length ≠ 16 then .next (raised s (.validation .contentLength))
        else .next (sent s (txFrame 0x23 ([BitVec.ofNat 8 block, BitVec.ofNat 8 pt] ++ content) (s.seq + 1)))

/-- R67: block, password type and 6 password bytes, or the first failing check (order: the spec's own decision D7, log entry
16). That a failing check leaves `SEQ` (R56) is its decision D6 (log entry 15). -/
def Obligations.ReadByCommandFrame : Prop :=
  ∀ (s : State) (block pt : Nat) (password : Bytes), s.session = .opened → pt ≤ 2 →
    exec (.sendM1ReadContentByCommand block pt password) s
      = if 255 < block then .next (raised s (.validation .blockRange))
        else if password.length ≠ 6 then .next (raised s (.validation .passwordLength))
        else .next (sent s (txFrame 0x24 ([BitVec.ofNat 8 block, BitVec.ofNat 8 pt] ++ password) (s.seq + 1)))

/-- R68: block, password type, 6 password bytes and 16 content bytes, or the first failing check (order: the spec's own
decision D7, log entry 16). That a failing check leaves `SEQ` (R56) is its decision D6 (log entry 15). -/
def Obligations.WriteByCommandFrame : Prop :=
  ∀ (s : State) (block pt : Nat) (password content : Bytes), s.session = .opened → pt ≤ 2 →
    exec (.sendM1WriteContentByCommand block pt password content) s
      = if 255 < block then .next (raised s (.validation .blockRange))
        else if password.length ≠ 6 then .next (raised s (.validation .passwordLength))
        else if content.length ≠ 16 then .next (raised s (.validation .contentLength))
        else .next (sent s (txFrame 0x25 ([BitVec.ofNat 8 block, BitVec.ofNat 8 pt] ++ password ++ content) (s.seq + 1)))

/-- R97: the two CPU operations raise NOT_IMPLEMENTED whatever the arguments, through their own rows and through `SEND`, and
change nothing else (R56, R69, R70); no other transaction ever does. That `SEQ` stays is the spec's own decision D6 (log
entry 15). -/
def Obligations.NotImplementedByCpuOperationsOnly : Prop :=
  (∀ (s : State) (args : List Arg), s.session = .opened →
    exec (.sendCpuCardRequest args) s = .next (raised s .notImplemented) ∧
    exec (.sendCpuGeneralCommand args) s = .next (raised s .notImplemented) ∧
    exec (.send 0x07 args) s = .next (raised s .notImplemented) ∧
    exec (.send 0x08 args) s = .next (raised s .notImplemented)) ∧
  (∀ (i : Instr) (s t : State), exec i s = .next t → t.result = some (.raised .notImplemented) →
    sendOperation i = some .cpuCardRequest ∨ sendOperation i = some .cpuGeneralCommand)

/-- R89: in a closed session every `SEND` the interface admits is rejected with CLOSED, before any check of its own, and
changes nothing. The rejection is the spec's own decision D12 (log entry 17), and that it comes before NOT_IMPLEMENTED and
every validation its decision D7 (log entry 16). -/
def Obligations.SendInClosedIsRejected : Prop :=
  ∀ (i : Instr) (s : State), isSend i = true → i.wellFormed = true → s.session = .closed →
    exec i s = .next (raised s .closed)

/-- R54: `SEND` runs the operation its selector names, with the named arguments; a selector outside the catalog is refused
(decision D2, log entry 20). That the arguments may stand in any order is the model's deduction from the line form of R46
(log entry 9). -/
def Obligations.SendRunsTheSelectedOperation : Prop :=
  (∀ s : State, s.session = .opened →
    exec (.send 0x06 []) s
      = .next (sent s [0xFE, 0xFE, 0x68, 0x25, 0x06, 0x00, 0x00, s.seq + 1, 0x93 + (s.seq + 1), 0x16])) ∧
  (∀ s : State, exec (.send 0x04 []) s = exec .sendReboot s) ∧
  (∀ (s : State) (args : List Arg) (bt bc lt lf : Option Int),
    args.Perm ((bt.toList.map fun v => ⟨.beeperTime, .int v⟩) ++ (bc.toList.map fun v => ⟨.beeperCycle, .int v⟩) ++
      (lt.toList.map fun v => ⟨.ledTime, .int v⟩) ++ (lf.toList.map fun v => ⟨.ledFlashCycle, .int v⟩)) →
    exec (.send 0x05 args) s = exec (.sendBeeperAndLed bt bc lt lf) s) ∧
  (∀ (s : State) (d : Int), exec (.send 0x09 [⟨.durationMs, .int d⟩]) s = exec (.sendCardSelectCancel d) s) ∧
  (∀ (s : State) (d : Int), exec (.send 0x0A [⟨.durationMs, .int d⟩]) s = exec (.sendCardPending d) s) ∧
  (∀ (s : State) (t : Int), exec (.send 0x20 [⟨.type, .int t⟩]) s = exec (.sendM1CardTestRequest t) s) ∧
  (∀ (s : State) (gs : List GroupArg),
    exec (.send 0x21 [⟨.groups, .groups gs⟩]) s = exec (.sendM1DownloadPasswordList (some gs)) s) ∧
  (∀ s : State, exec (.send 0x21 []) s = exec (.sendM1DownloadPasswordList none) s) ∧
  (∀ (s : State) (args : List Arg) (b p : Int),
    args.Perm [⟨.block, .int b⟩, ⟨.passwordType, .int p⟩] →
    exec (.send 0x22 args) s = exec (.sendM1ReadContentByKey b p) s) ∧
  (∀ (s : State) (args : List Arg) (b p : Int) (c : Bytes),
    args.Perm [⟨.block, .int b⟩, ⟨.passwordType, .int p⟩, ⟨.content, .bytes c⟩] →
    exec (.send 0x23 args) s = exec (.sendM1WriteContentByKey b p c) s) ∧
  (∀ (s : State) (args : List Arg) (b p : Int) (w : Bytes),
    args.Perm [⟨.block, .int b⟩, ⟨.passwordType, .int p⟩, ⟨.password, .bytes w⟩] →
    exec (.send 0x24 args) s = exec (.sendM1ReadContentByCommand b p w) s) ∧
  (∀ (s : State) (args : List Arg) (b p : Int) (w c : Bytes),
    args.Perm [⟨.block, .int b⟩, ⟨.passwordType, .int p⟩, ⟨.password, .bytes w⟩, ⟨.content, .bytes c⟩] →
    exec (.send 0x25 args) s = exec (.sendM1WriteContentByCommand b p w c) s) ∧
  (∀ (s : State) (op : Byte) (args : List Arg),
    op ∉ [0x04, 0x05, 0x06, 0x07, 0x08, 0x09, 0x0A, 0x20, 0x21, 0x22, 0x23, 0x24, 0x25] →
    exec (.send op args) s = .refused .noSuchOperation)

/-! ### The interface -/

/-- R101: an ill-formed transaction is refused, in every state, under the name the rule gives. The refusals are the spec's
own decisions D2, D3, D4, D22 and D23 (log entries 20 and 22). The model's own: a partly unset beeperAndLed is refused in a
closed session too (deduced, log entry 8); surplus, repeated and missing names are ill-formed (deduced, log entry 9); the
refusal of an `RX.FRAME` that is no frame has a name of the model's (log entry 4). -/
def Obligations.IllFormedIsRefused : Prop :=
  ∀ (i : Instr) (s : State), i.wellFormed = false → exec i s = .refused (refusalOf i)

/-- R101 the other way: a well-formed transaction always completes, but for a `FEED` or an arrival past the capacity of a
bounded build (decision D10). -/
def Obligations.WellFormedCompletes : Prop :=
  ∀ (i : Instr) (s : State), i.wellFormed = true →
    (∃ t, exec i s = .next t) ∨
    (∃ c cap, arrival i = some c ∧ s.session = .opened ∧ s.bufCap = some cap ∧ cap < s.rxbuf.length + c.length ∧
      exec i s = .refused .bufOverflow)

/-- R82, R102: no transaction and no step ever ends in a fault: every read of the decoder is inside the buffer, and every
pass ends. -/
def Obligations.NothingFaults : Prop :=
  (∀ (i : Instr) (s : State) (f : Fault), exec i s ≠ .fault f) ∧ ∀ (s : State) (f : Fault), step s ≠ .fault f

/-! ### SEND and the registers -/

/-- R55: a successful `SEND` takes the next sequence value, hands over the frame of its catalog opcode with that value, and
writes nothing else; it does not read `RXBUF`; and after reset the frames carry 1, 2, …, 255, 0, 1, …. The last clause
numbers the frames by their place in `txout`, which is empty at reset by the model's choice (log entry 5), and failed `SEND`s
among them take no number by the spec's own decision D6 (log entry 15). -/
def Obligations.SuccessfulSendTakesTheNextSequence : Prop :=
  (∀ (i : Instr) (s t : State), isSend i = true → exec i s = .next t → (∀ st, t.result ≠ some (.raised st)) →
    ∃ o p, sendOperation i = some o ∧ p.length ≤ 65535 ∧ t = sent s (txFrame (opcode o) p (s.seq + 1))) ∧
  (∀ (i : Instr) (s : State) (b : Bytes), isSend i = true →
    exec i { s with rxbuf := b } = mapNext (fun t => { t with rxbuf := b }) (exec i s)) ∧
  (∀ (is : List Instr) (t : State), (∀ i ∈ is, isSend i = true) → runAll is State.reset = .next t →
    ∀ (k : Nat) (f : Bytes), t.txout[k]? = some f → ∃ op p, f = txFrame op p (BitVec.ofNat 8 (k + 1)))

/-- R56: a `SEND` that ends in a status other than OK leaves everything but its result. That `SEQ` does not advance is the
spec's own decision D6 (log entry 15). -/
def Obligations.FailedSendChangesNothing : Prop :=
  ∀ (i : Instr) (s t : State) (st : Status), isSend i = true → exec i s = .next t → t.result = some (.raised st) →
    t = raised s st

/-- R12: only a successful `SEND` and `RESET` write `SEQ`; its new value after a `SEND` is the frame's sequence byte; and
the receive path does not read it. -/
def Obligations.SeqIsTheSendersAlone : Prop :=
  (∀ (i : Instr) (s t : State), exec i s = .next t →
    (i = .reset → t.seq = 0) ∧
    (isSend i = true →
      (∃ f, t.result = some (.okFrame f) ∧ t.seq = s.seq + 1 ∧ f[f.length - 3]? = some t.seq) ∨
      ((∃ st, t.result = some (.raised st)) ∧ t.seq = s.seq)) ∧
    (isSend i = false → i ≠ .reset → t.seq = s.seq)) ∧
  (∀ (i : Instr) (s : State) (v : Byte), (arrival i).isSome = true →
    exec i { s with seq := v } = mapNext (fun t => { t with seq := v }) (exec i s))

/-- R13: `RESET` writes OPEN, `CLOSE` writes CLOSED, nothing else writes `STATE`, and `PACK` and `SUM` do not read it. (That
`SEND` is rejected in CLOSED, which the rule also says, is another statement.) The admission of `PACK` and `SUM` in either
state is the spec's own decision D24 (log entry 23). -/
def Obligations.SessionIsWrittenByCloseAndReset : Prop :=
  (∀ (i : Instr) (s t : State), exec i s = .next t →
    (i = .reset → t.session = .opened) ∧ (i = .close → t.session = .closed) ∧
    (i ≠ .reset → i ≠ .close → t.session = s.session)) ∧
  (∀ (s : State) (x : Session) (op : Byte) (p : Bytes) (q : Byte),
    exec (.pack op p q) { s with session := x } = mapNext (fun t => { t with session := x }) (exec (.pack op p q) s)) ∧
  (∀ (s : State) (x : Session) (b : Bytes) (start stop : Nat),
    exec (.sum b start stop) { s with session := x }
      = mapNext (fun t => { t with session := x }) (exec (.sum b start stop) s))

/-- R14: `RXBUF` is written by `CLOSE` and `RESET` (cleared) and by what reaches the decoder, which appends at the end and
drops from the front; nothing else writes it. The arrival rows stand beside `FEED` by log entry 4. -/
def Obligations.RxbufIsTheDecodersAlone : Prop :=
  ∀ (i : Instr) (s t : State), exec i s = .next t →
    (i = .close ∨ i = .reset → t.rxbuf = []) ∧
    (∀ c, arrival i = some c → t.rxbuf = s.rxbuf ∨ ∃ k, t.rxbuf = (s.rxbuf ++ c).drop k) ∧
    (arrival i = none → i ≠ .close → i ≠ .reset → t.rxbuf = s.rxbuf)

/-- R29, R52: only a successful `SEND` hands a frame over, one frame, behind those before it; only the decoder puts events
out, behind those before. -/
def Obligations.OutputsGrowInOrder : Prop :=
  ∀ (i : Instr) (s t : State), exec i s = .next t →
    (t.txout = s.txout ∨ isSend i = true ∧ ∃ f, t.result = some (.okFrame f) ∧ t.txout = s.txout ++ [f]) ∧
    (t.rxout = s.rxout ∨
      (arrival i).isSome = true ∧ ∃ es, t.result = some (.okEvents es) ∧ t.rxout = s.rxout ++ es)

/-- R19, R27: no transaction changes the build parameter, or what is presented and not yet taken (log entries 1 and 6). -/
def Obligations.BuildAndQueueAreLeft : Prop :=
  ∀ (i : Instr) (s t : State), exec i s = .next t → t.bufCap = s.bufCap ∧ t.pending = s.pending

/-- R20, R21: a transaction reads neither results nor what was put out before: with other outputs behind it, it answers the
same, on the same registers. The output fields are the model's (log entry 5). -/
def Obligations.OutputsAreNeverRead : Prop :=
  ∀ (i : Instr) (s : State) (r : Option Result) (x : List Bytes) (y : List Event),
    exec i { s with result := r, txout := x ++ s.txout, rxout := y ++ s.rxout }
      = mapNext (fun t => { t with txout := x ++ t.txout, rxout := y ++ t.rxout }) (exec i s)

/-- R30: `SEND` and `FEED` in either order give the same registers and each the same result; no `FEED` reads `SEQ`, and no
`SEND` reads `RXBUF`; and every interleaving of a sequence of `SEND`s and a sequence of `FEED`s is admitted, leaves each
path's registers and outputs as its sequence alone does, and gives every transaction the same result. -/
def Obligations.SendAndFeedAreIndependent : Prop :=
  (∀ (i : Instr) (c : Bytes) (s t u : State), isSend i = true → exec i s = .next t → exec (.feed c) s = .next u →
    exec (.feed c) t = .next { u with seq := t.seq, txout := t.txout } ∧
    exec i u = .next { t with rxbuf := u.rxbuf, rxout := u.rxout }) ∧
  (∀ (c : Bytes) (s : State) (v : Byte),
    exec (.feed c) { s with seq := v } = mapNext (fun t => { t with seq := v }) (exec (.feed c) s)) ∧
  (∀ (i : Instr) (s : State) (b : Bytes), isSend i = true →
    exec i { s with rxbuf := b } = mapNext (fun t => { t with rxbuf := b }) (exec i s)) ∧
  (∀ (is : List Instr) (s a b : State), (∀ i ∈ is, isSend i = true ∨ ∃ c, i = .feed c) →
    runAll (is.filter isSend) s = .next a → runAll (is.filter (fun i => !isSend i)) s = .next b →
    (∃ r, runAll is s
      = .next { s with seq := a.seq, txout := a.txout, rxbuf := b.rxbuf, rxout := b.rxout, result := r }) ∧
    pathResults isSend is s = pathResults isSend (is.filter isSend) s ∧
    pathResults (fun i => !isSend i) is s
      = pathResults (fun i => !isSend i) (is.filter (fun i => !isSend i)) s)

/-! ### FEED -/

/-- R82 and R71: a chunk the decoder admits always completes: some bytes are dropped from the front, the pass ends in a
wait condition, and only the receive path is written. For the arrival rows: log entry 4. -/
def Obligations.FeedCompletesInAWait : Prop :=
  ∀ (i : Instr) (c : Bytes) (s : State), arrival i = some c → i.wellFormed = true → Admits s c.length →
    ∃ k es, exec i s = .next (received s ((s.rxbuf ++ c).drop k) es) ∧ Waiting ((s.rxbuf ++ c).drop k)

/-- R72: on 10 bytes or fewer the pass ends at once, whatever the bytes are. -/
def Obligations.ShortBufferWaits : Prop :=
  ∀ (s : State) (c : Bytes), Admits s c.length → s.rxbuf.length + c.length ≤ 10 →
    exec (.feed c) s = .next (received s (s.rxbuf ++ c) [])

/-- R74: after a header match the pass waits until `11 + L` bytes are there, for every `L` of the field. -/
def Obligations.IncompleteFrameWaits : Prop :=
  ∀ (s : State) (c : Bytes), Admits s c.length → 11 ≤ (s.rxbuf ++ c).length → HasHeader (s.rxbuf ++ c) →
    (s.rxbuf ++ c).length < 11 + claimedLength (s.rxbuf ++ c) →
    exec (.feed c) s = .next (received s (s.rxbuf ++ c) [])

/-- R75, R77, R78: a complete frame with its terminator in place is removed, gives one event, EMIT of its payload if the
checksum is right and FRAMING(BAD_CHECKSUM) if not, and the pass goes on with the bytes behind it. -/
def Obligations.CompleteFrameIsConsumed : Prop :=
  ∀ (s : State) (c : Bytes) (op : Byte) (p : Bytes) (q cs : Byte) (rest : Bytes), Admits s c.length →
    p.length ≤ 65535 → s.rxbuf ++ c = rxBytes op p q cs 0x16 ++ rest →
    ∃ b es, exec (.feed []) { s with rxbuf := rest } = .next (received { s with rxbuf := rest } b es) ∧
      exec (.feed c) s
        = .next (received s b ((if cs = rxChecksum op p q then .emit p else .framing .badChecksum) :: es))

/-- R79: a frame whose terminator is wrong loses all its bytes but that one, gives FRAMING(BAD_TERMINATOR) whatever its
checksum is, and the pass goes on from the byte kept; an RX frame that follows at once is not decoded. -/
def Obligations.BadTerminatorKeepsItsByte : Prop :=
  ∀ (s : State) (c : Bytes) (op : Byte) (p : Bytes) (q cs t : Byte) (rest : Bytes), Admits s c.length →
    p.length ≤ 65535 → t ≠ 0x16 → s.rxbuf ++ c = rxBytes op p q cs t ++ rest →
    (∃ b es, exec (.feed []) { s with rxbuf := t :: rest } = .next (received { s with rxbuf := t :: rest } b es) ∧
      exec (.feed c) s = .next (received s b (.framing .badTerminator :: es))) ∧
    (∀ op' p' q', rest = packIn op' p' q' → (∀ k, ¬ MarkAt (t :: rest) k) →
      exec (.feed c) s = .next (received s (t :: rest) [.framing .badTerminator]))

/-- R80: without a header everything up to and including the `16` of the lowest mark is dropped, without an event, and the
pass goes on from the header behind it. That the lowest mark is taken is the spec's own decision D8 (log entry 13). -/
def Obligations.ResyncDropsThroughTheFirstMark : Prop :=
  ∀ (s : State) (c : Bytes) (k : Nat), Admits s c.length → 11 ≤ (s.rxbuf ++ c).length → ¬ HasHeader (s.rxbuf ++ c) →
    MarkAt (s.rxbuf ++ c) k → (∀ j < k, ¬ MarkAt (s.rxbuf ++ c) j) →
    ∃ b es, exec (.feed []) { s with rxbuf := (s.rxbuf ++ c).drop (k + 1) }
        = .next (received { s with rxbuf := (s.rxbuf ++ c).drop (k + 1) } b es) ∧
      exec (.feed c) s = .next (received s b es)

/-- R81: without a header and without a complete mark the buffer is kept whole, without bound, and a mark that straddles its
end is found when its sixth byte arrives. -/
def Obligations.NoMarkKeepsTheBuffer : Prop :=
  (∀ (s : State) (c : Bytes), Admits s c.length → 11 ≤ (s.rxbuf ++ c).length → ¬ HasHeader (s.rxbuf ++ c) →
    (∀ k, ¬ MarkAt (s.rxbuf ++ c) k) → exec (.feed c) s = .next (received s (s.rxbuf ++ c) [])) ∧
  (∀ (s : State) (noise : Bytes), Admits s 1 → s.rxbuf = noise ++ [0x16, 0xFE, 0xFE, 0xFE, 0x68] → 5 ≤ noise.length →
    ¬ HasHeader s.rxbuf → (∀ k, ¬ MarkAt s.rxbuf k) →
    exec (.feed [0x26]) s = .next (received s [0xFE, 0xFE, 0xFE, 0x68, 0x26] []))

/-- R88: in a closed session a `FEED` is rejected with CLOSED, status code 5, an empty chunk too; nothing is appended and no
event is produced. For the arrival rows: log entry 4. -/
def Obligations.FeedInClosedIsRejected : Prop :=
  ∀ (i : Instr) (c : Bytes) (s : State), arrival i = some c → i.wellFormed = true → s.session = .closed →
    exec i s = .next (raised s .closed) ∧ Status.closed.code = 5

/-- R86: past a finite capacity a `FEED` is refused, and no step is taken (the spec's own decision D10, log entry 22). For
the arrival rows: log entry 4. -/
def Obligations.FeedPastCapacityIsRefused : Prop :=
  ∀ (i : Instr) (c : Bytes) (s : State) (cap : Nat), arrival i = some c → i.wellFormed = true →
    s.session = .opened → s.bufCap = some cap → cap < s.rxbuf.length + c.length → exec i s = .refused .bufOverflow

/-- R85 (derived by the spec): an empty chunk in a state where the decoder waits changes nothing but the result. -/
def Obligations.EmptyFeedChangesNothing : Prop :=
  ∀ s : State, Admits s 0 → Waiting s.rxbuf → exec (.feed []) s = .next (withResult s (.okEvents []))

/-- R83 (derived by the spec): however a byte stream is cut into chunks, empty ones included, the events in total and the
buffer at the end are those of the whole stream in one chunk. It rests on the lowest mark being taken, the spec's own
decision D8 (log entry 13). -/
def Obligations.ChunkBoundariesDoNotMatter : Prop :=
  ∀ (s : State) (chunks : List Bytes), s.session = .opened → s.bufCap = none → Waiting s.rxbuf →
    ∃ t u, runAll (chunks.map .feed) s = .next t ∧ exec (.feed chunks.flatten) s = .next u ∧
      t.rxbuf = u.rxbuf ∧ t.rxout = u.rxout ∧ t = { u with result := t.result }

/-- R87 (derived by the spec): N well-formed RX frames in one chunk, whatever their payloads hold, give exactly their N
payloads in order and leave nothing. -/
def Obligations.BackToBackFramesAreAllEmitted : Prop :=
  ∀ (s : State) (frames : List (Byte × Bytes × Byte)), s.rxbuf = [] →
    Admits s (frames.flatMap (fun f => packIn f.1 f.2.1 f.2.2)).length →
    (∀ f ∈ frames, f.2.1.length ≤ 65535) →
    exec (.feed (frames.flatMap (fun f => packIn f.1 f.2.1 f.2.2))) s
      = .next (received s [] (frames.map (fun f => .emit f.2.1)))

/-- R110 (derived by the spec): the block does not decode its own output: a TX frame that holds no mark stays whole, in
WAIT_SHORT without a payload and in WAIT_RESYNC with one. -/
def Obligations.LoopbackDecodesNothing : Prop :=
  ∀ (s : State) (op : Byte) (p : Bytes) (q : Byte), s.rxbuf = [] → p.length ≤ 65535 → Admits s (10 + p.length) →
    (∀ k, ¬ MarkAt (txFrame op p q) k) →
    exec (.feed (txFrame op p q)) s = .next (received s (txFrame op p q) []) ∧
    (p = [] → WaitShort (txFrame op p q)) ∧ (p ≠ [] → WaitResync (txFrame op p q))

/-- R111 (derived by the spec): a frame behind noise is emitted if the noise ends in `16` and holds neither a header at its
front nor an earlier mark. With empty noise, or with a mark in the payload, this rests on the search starting at index 0 and
taking the lowest mark, the spec's own decision D8 (log entry 13). -/
def Obligations.FrameBehindATerminatorIsFound : Prop :=
  ∀ (s : State) (noise : Bytes) (op : Byte) (p : Bytes) (q : Byte), s.rxbuf = [] → p.length ≤ 65535 →
    Admits s (noise ++ [0x16] ++ packIn op p q).length → ¬ HasHeader (noise ++ [0x16] ++ packIn op p q) →
    (∀ k < noise.length, ¬ MarkAt (noise ++ [0x16] ++ packIn op p q) k) →
    exec (.feed (noise ++ [0x16] ++ packIn op p q)) s = .next (received s [] [.emit p])

/-- R84: the decoder accepts every opcode and every sequence value, and relates them neither to `SEQ` nor to a frame
sent. -/
def Obligations.OpcodeAndSequenceAreNotChecked : Prop :=
  (∀ (s : State) (op : Byte) (p : Bytes) (q : Byte), s.rxbuf = [] → p.length ≤ 65535 → Admits s (11 + p.length) →
    exec (.feed (packIn op p q)) s = .next (received s [] [.emit p])) ∧
  (∀ (c : Bytes) (s : State) (v : Byte) (x : List Bytes),
    exec (.feed c) { s with seq := v, txout := x } = mapNext (fun t => { t with seq := v, txout := x }) (exec (.feed c) s))

/-- R36 to R39 with R104: an RX frame alone gets exactly one event, the terminator before the checksum (the order that R104
marks as the spec's own decision D7, log entry 16); a wrong terminator byte is kept. The row RX.FRAME as an arrival is the
model's (log entry 4). -/
def Obligations.RxFrameAloneGetsOneEvent : Prop :=
  ∀ (s : State) (op : Byte) (p : Bytes) (q cs t : Byte), s.rxbuf = [] → p.length ≤ 65535 → Admits s (11 + p.length) →
    exec (.rxFrame op p q cs t) s
      = .next (if t ≠ 0x16 then received s [t] [.framing .badTerminator]
          else if cs = rxChecksum op p q then received s [] [.emit p]
          else received s [] [.framing .badChecksum])

/-- R38, R80: the mark behind 5 bytes of noise or more leaves the header it ends in, without an event. The row RX.RESYNC_MARK
as an arrival is the model's (log entry 4). -/
def Obligations.ResyncMarkLeavesAHeader : Prop :=
  ∀ s : State, Admits s 6 → 5 ≤ s.rxbuf.length → ¬ HasHeader s.rxbuf →
    (∀ k < s.rxbuf.length, ¬ MarkAt (s.rxbuf ++ [0x16, 0xFE, 0xFE, 0xFE, 0x68, 0x26]) k) →
    exec .rxResyncMark s = .next (received s [0xFE, 0xFE, 0xFE, 0x68, 0x26] [])

/-! ### Session, reset, codes -/

/-- R91: `CLOSE` drops the buffer and closes the session, in either state, writes nothing else, and a second `CLOSE` changes
nothing. That `SEQ` stays is the spec's own decision D13. -/
def Obligations.CloseEndsTheSession : Prop :=
  ∀ s : State,
    exec .close s = .next { s with rxbuf := [], session := .closed, result := some .ok } ∧
    (∀ t, exec .close s = .next t → exec .close t = .next t)

/-- R90: `RESET` gives all three registers their reset values, in either state, and a second `RESET` changes nothing (the
spec's own decision D14). What has been put out or presented stays (log entry 7). -/
def Obligations.ResetStartsASession : Prop :=
  ∀ s : State,
    exec .reset s = .next { s with seq := 0, rxbuf := [], session := .opened, result := some .ok } ∧
    (∀ t, exec .reset s = .next t → exec .reset t = .next t)

/-- R22, R108: the registers at power-on, which are those after any `RESET`; the first successful `SEND` from there carries
sequence byte 0x01. `STATE` and the buffer at power-on are the spec's own decision D14 (log entry 12). -/
def Obligations.ResetValues : Prop :=
  State.reset.seq = 0 ∧ State.reset.session = .opened ∧ State.reset.rxbuf = [] ∧
  (∀ s t : State, exec .reset s = .next t →
    t.seq = State.reset.seq ∧ t.session = State.reset.session ∧ t.rxbuf = State.reset.rxbuf) ∧
  exec .sendHandshake State.reset
    = .next (sent State.reset [0xFE, 0xFE, 0x68, 0x25, 0x06, 0x00, 0x00, 0x01, 0x94, 0x16])

/-- R95, R96, R98: the codes of statuses, reasons and framing events; the numbers are the spec's own decision D15. -/
def Obligations.CodesAreThoseOfTheTables : Prop :=
  Status.ok.code = 0 ∧ (∀ r, (Status.validation r).code = 1) ∧ Status.notImplemented.code = 2 ∧
  (∀ k, (Status.framing k).code = 3) ∧ Status.transport.code = 4 ∧ Status.closed.code = 5 ∧
  Reason.blockRange.code = 1 ∧ Reason.passwordLength.code = 2 ∧ Reason.contentLength.code = 3 ∧
  Reason.emptyList.code = 4 ∧ Framing.badTerminator.code = 1 ∧ Framing.badChecksum.code = 2

/-- R95, R96, R98, R100: every transaction that completes says its result, and its status is OK, VALIDATION, NOT_IMPLEMENTED
or CLOSED, never FRAMING and never TRANSPORT; VALIDATION is raised by `SEND` of opcodes 21 to 25 alone, for the reasons R96
gives each, NOT_IMPLEMENTED by `SEND` of the CPU operations alone, and in a closed session `SEND` and what reaches the decoder
have CLOSED, and they alone. `SEND` in a closed session is the spec's own decisions D12 and D7 (log entries 17 and 16); the
arrival rows are the model's (log entry 4). -/
def Obligations.StatusesByTransaction : Prop :=
  ∀ (i : Instr) (s t : State), exec i s = .next t →
    ∃ r, t.result = some r ∧
      ((r.status = .ok ∧ (s.session = .opened ∨ (isSend i = false ∧ arrival i = none))) ∨
        (∃ o reason, r.status = .validation reason ∧ s.session = .opened ∧ sendOperation i = some o ∧
          reason ∈ reasonsOf o) ∨
        (r.status = .notImplemented ∧ s.session = .opened ∧
          (sendOperation i = some .cpuCardRequest ∨ sendOperation i = some .cpuGeneralCommand)) ∨
        (r.status = .closed ∧ s.session = .closed ∧ (isSend i = true ∨ (arrival i).isSome = true)))

/-! ### Invariants -/

/-- R15, R14, R91, R34: every step keeps the invariant of the block. -/
def Obligations.EveryStepKeepsSound : Prop :=
  ∀ s t : State, Sound s → step s = .next t → Sound t

/-- The invariant holds at reset (R22). -/
def Obligations.ResetIsSound : Prop := Sound State.reset

/-! ### The arrival rows -/

/-- The rows RX.FRAME and RX.RESYNC_MARK do in every state what `FEED` of their bytes does, so that every statement about
`FEED` is one about them. That is the model's reading of the two rows (log entry 4). -/
def Obligations.ArrivalRowsAreFeeds : Prop :=
  (∀ (s : State) (op : Byte) (p : Bytes) (q cs t : Byte), p.length ≤ 65535 →
    exec (.rxFrame op p q cs t) s = exec (.feed (rxBytes op p q cs t)) s) ∧
  (∀ s : State, exec .rxResyncMark s = exec (.feed [0x16, 0xFE, 0xFE, 0xFE, 0x68, 0x26]) s)
end

