-- ==== Sys2Proof/Laws/Codec.lean ====
section
/-! SUPPORT. Each operand reader reads back what its writer writes, whatever follows; and each value read was spelled the
one way its writer spells it. -/

namespace Sys2Proof

open Machine

/-! ### Reading back what was written -/

@[simp] theorem getByte_cons (b : Byte) (bs : Bytes) : getByte (b :: bs) = .ok (b, bs) := rfl

@[simp] theorem getExactly_append (p rest : Bytes) : getExactly p.length (p ++ rest) = .ok (p, rest) := by
  simp [getExactly]

theorem getNat_putNatFuel (fuel n : Nat) (rest : Bytes) (h : n < fuel) :
    getNat (putNatFuel fuel n ++ rest) = .ok (n, rest) := by
  induction fuel generalizing n with
  | zero => omega
  | succ fuel ih =>
    unfold putNatFuel
    split
    next small =>
      have : n % 256 = n := by omega
      simp [getNat, BitVec.toNat_ofNat, this, small]
    next big =>
      have step := ih (n / 128) (by omega)
      have digit : (128 + n % 128) % 256 = 128 + n % 128 := by omega
      have more : n / 128 ≠ 0 := by omega
      simp only [List.cons_append, getNat, BitVec.toNat_ofNat, Nat.reducePow, digit]
      rw [step]
      simp only [bind, Except.bind, more, if_false, show ¬ 128 + n % 128 < 128 by omega]
      congr 2
      omega

@[simp] theorem getNat_putNat (n : Nat) (rest : Bytes) : getNat (putNat n ++ rest) = .ok (n, rest) :=
  getNat_putNatFuel _ _ _ (by omega)

@[simp] theorem intOfNat_natOfInt (v : Int) : intOfNat (natOfInt v) = v := by
  cases v with
  | ofNat n => simp [natOfInt, intOfNat]
  | negSucc n =>
    have odd : (2 * n + 1) % 2 = 1 := by omega
    have half : (2 * n + 1) / 2 = n := by omega
    simp [natOfInt, intOfNat, odd, half]

@[simp] theorem getInt_putInt (v : Int) (rest : Bytes) : getInt (putInt v ++ rest) = .ok (v, rest) := by
  simp [getInt, putInt, bind, Except.bind]

@[simp] theorem getBytes_putBytes (b rest : Bytes) : getBytes (putBytes b ++ rest) = .ok (b, rest) := by
  simp [getBytes, putBytes, List.append_assoc, bind, Except.bind]

/-- An optional value is read back if the value is. -/
theorem getOptional_putOptional {α : Type} {get : Bytes → Except DecodeError (α × Bytes)} {put : α → Bytes}
    (h : ∀ v rest, get (put v ++ rest) = .ok (v, rest)) (o : Option α) (rest : Bytes) :
    getOptional get (putOptional put o ++ rest) = .ok (o, rest) := by
  cases o with
  | none => rfl
  | some v => simp [getOptional, putOptional, bind, Except.bind, h]

/-- A list is read back if its values are. -/
theorem getList_putList {α : Type} {get : Bytes → Except DecodeError (α × Bytes)} {put : α → Bytes}
    (h : ∀ v rest, get (put v ++ rest) = .ok (v, rest)) (vs : List α) (rest : Bytes) :
    getList get (putList put vs ++ rest) = .ok (vs, rest) := by
  have many : getMany get vs.length (vs.flatMap put ++ rest) = .ok (vs, rest) := by
    induction vs with
    | nil => rfl
    | cons v vs ih => simp [getMany, bind, Except.bind, h, ih]
  simp [getList, putList, List.append_assoc, bind, Except.bind, many]

@[simp] theorem getOptional_putInt (o : Option Int) (rest : Bytes) :
    getOptional getInt (putOptional putInt o ++ rest) = .ok (o, rest) :=
  getOptional_putOptional getInt_putInt o rest

@[simp] theorem getGroup_putGroup (g : GroupArg) (rest : Bytes) : getGroup (putGroup g ++ rest) = .ok (g, rest) := by
  simp [getGroup, putGroup, List.append_assoc, bind, Except.bind]

@[simp] theorem getGroups_putGroups (gs : List GroupArg) (rest : Bytes) :
    getList getGroup (putList putGroup gs ++ rest) = .ok (gs, rest) :=
  getList_putList getGroup_putGroup gs rest

@[simp] theorem getOptionalGroups_putOptionalGroups (gs : Option (List GroupArg)) (rest : Bytes) :
    getOptional (getList getGroup) (putOptional (putList putGroup) gs ++ rest) = .ok (gs, rest) :=
  getOptional_putOptional getGroups_putGroups gs rest

@[simp] theorem getArgName_putArgName (n : ArgName) (rest : Bytes) :
    getArgName (putArgName n :: rest) = .ok (n, rest) := by
  cases n <;> rfl

@[simp] theorem getArgVal_putArgVal (v : ArgVal) (rest : Bytes) :
    getArgVal (putArgVal v ++ rest) = .ok (v, rest) := by
  cases v <;> simp [getArgVal, putArgVal, bind, Except.bind]

@[simp] theorem getArg_putArg (a : Arg) (rest : Bytes) : getArg (putArg a ++ rest) = .ok (a, rest) := by
  simp [getArg, putArg, bind, Except.bind]

@[simp] theorem getArgs_putArgs (args : List Arg) (rest : Bytes) :
    getList getArg (putList putArg args ++ rest) = .ok (args, rest) :=
  getList_putList getArg_putArg args rest

@[simp] theorem operationOf_opcode (o : Operation) : operationOf (opcode o) = some o := by
  cases o <;> rfl

/-- `be16` of a length field's two bytes is the length, for a length that fits. -/
theorem be16_lengthField {n : Nat} (h : n ≤ maxPayload) :
    be16 (hiByte (lengthField n)) (loByte (lengthField n)) = n := by
  have fits : n < 65536 := by simp only [maxPayload] at h; omega
  have high : n / 256 % 256 = n / 256 := by omega
  simp only [be16, hiByte, loByte, lengthField, BitVec.extractLsb'_toNat, BitVec.toNat_ofNat, Nat.shiftRight_eq_div_pow,
    Nat.reducePow, Nat.pow_zero, Nat.div_one]
  omega

/-! ### One spelling -/

theorem getExactly_ok {n : Nat} {bs p rest : Bytes} (h : getExactly n bs = .ok (p, rest)) :
    bs = p ++ rest ∧ p.length = n := by
  unfold getExactly at h
  split at h
  · obtain ⟨rfl, rfl⟩ : bs.take n = p ∧ bs.drop n = rest := by simpa using h
    exact ⟨(List.take_append_drop n bs).symm, by simpa using ‹n ≤ bs.length›⟩
  · cases h

theorem getByte_ok {bs rest : Bytes} {b : Byte} (h : getByte bs = .ok (b, rest)) : bs = b :: rest := by
  cases bs with
  | nil => cases h
  | cons c cs =>
    obtain ⟨rfl, rfl⟩ : c = b ∧ cs = rest := by simpa [getByte] using h
    rfl

/-- More fuel than a number needs spells it the same way. -/
theorem putNatFuel_irrelevant {n a b : Nat} (ha : n < a) (hb : n < b) : putNatFuel a n = putNatFuel b n := by
  induction a generalizing b n with
  | zero => omega
  | succ a ih =>
    cases b with
    | zero => omega
    | succ b =>
      unfold putNatFuel
      split
      · rfl
      · rw [ih (n := n / 128) (b := b) (by omega) (by omega)]

/-- A number of two digits or more: its lowest digit, then the rest. -/
theorem putNat_of_big {n : Nat} (h : ¬ n < 128) : putNat n = BitVec.ofNat 8 (128 + n % 128) :: putNat (n / 128) := by
  rw [putNat, putNatFuel, if_neg h, putNat, putNatFuel_irrelevant (n := n / 128) (b := n / 128 + 1) (by omega) (by omega)]

theorem getNat_ok {bs rest : Bytes} {n : Nat} (h : getNat bs = .ok (n, rest)) : bs = putNat n ++ rest := by
  induction bs generalizing n with
  | nil => cases h
  | cons b bs ih =>
    have byte : b.toNat < 256 := b.isLt
    unfold getNat at h
    split at h
    next small =>
      obtain ⟨rfl, rfl⟩ : b.toNat = n ∧ bs = rest := by simpa using h
      simp [putNat, putNatFuel, small]
    next big =>
      cases inner : getNat bs with
      | error e => simp [inner, bind, Except.bind] at h
      | ok v =>
        obtain ⟨m, r⟩ := v
        simp only [inner, bind, Except.bind] at h
        split at h
        · cases h
        next nonzero =>
          obtain ⟨rfl, rfl⟩ : b.toNat - 128 + 128 * m = n ∧ r = rest := by simpa using h
          have digit : BitVec.ofNat 8 (128 + (b.toNat - 128 + 128 * m) % 128) = b := by
            apply BitVec.eq_of_toNat_eq
            simp only [BitVec.toNat_ofNat]
            omega
          have quotient : (b.toNat - 128 + 128 * m) / 128 = m := by omega
          rw [putNat_of_big (n := b.toNat - 128 + 128 * m) (by omega), digit, quotient, ih inner]
          rfl

theorem natOfInt_intOfNat (n : Nat) : natOfInt (intOfNat n) = n := by
  unfold intOfNat
  split <;> simp only [natOfInt] <;> omega

theorem getInt_ok {bs rest : Bytes} {v : Int} (h : getInt bs = .ok (v, rest)) : bs = putInt v ++ rest := by
  unfold getInt at h
  cases inner : getNat bs with
  | error e => simp [inner, bind, Except.bind] at h
  | ok w =>
    obtain ⟨n, r⟩ := w
    obtain ⟨rfl, rfl⟩ : intOfNat n = v ∧ r = rest := by simpa [inner, bind, Except.bind] using h
    rw [putInt, natOfInt_intOfNat]
    exact getNat_ok inner

theorem getBytes_ok {bs b rest : Bytes} (h : getBytes bs = .ok (b, rest)) : bs = putBytes b ++ rest := by
  unfold getBytes at h
  cases inner : getNat bs with
  | error e => simp [inner, bind, Except.bind] at h
  | ok w =>
    obtain ⟨n, r⟩ := w
    have exact : getExactly n r = .ok (b, rest) := by simpa [inner, bind, Except.bind] using h
    obtain ⟨rfl, rfl⟩ := getExactly_ok exact
    rw [getNat_ok inner, putBytes, List.append_assoc]

/-- An optional value has one spelling if the value has. -/
theorem getOptional_ok {α : Type} {get : Bytes → Except DecodeError (α × Bytes)} {put : α → Bytes}
    (one : ∀ {bs v rest}, get bs = .ok (v, rest) → bs = put v ++ rest) {bs rest : Bytes} {o : Option α}
    (h : getOptional get bs = .ok (o, rest)) : bs = putOptional put o ++ rest := by
  cases bs with
  | nil => cases h
  | cons t r =>
    simp only [getOptional, getByte_cons, bind, Except.bind] at h
    split at h
    next zero =>
      obtain ⟨rfl, rfl⟩ : none = o ∧ r = rest := by simpa using h
      rw [zero]
      rfl
    split at h
    next isOne =>
      cases inner : get r with
      | error e => simp [inner] at h
      | ok w =>
        obtain ⟨v, r'⟩ := w
        obtain ⟨rfl, rfl⟩ : some v = o ∧ r' = rest := by simpa [inner] using h
        rw [isOne, one inner]
        rfl
    · cases h

/-- A list has one spelling if its values have. -/
theorem getList_ok {α : Type} {get : Bytes → Except DecodeError (α × Bytes)} {put : α → Bytes}
    (one : ∀ {bs v rest}, get bs = .ok (v, rest) → bs = put v ++ rest) {bs rest : Bytes} {vs : List α}
    (h : getList get bs = .ok (vs, rest)) : bs = putList put vs ++ rest := by
  have many : ∀ (n : Nat) (bs : Bytes) (vs : List α), getMany get n bs = .ok (vs, rest) →
      bs = vs.flatMap put ++ rest ∧ vs.length = n := by
    intro n
    induction n with
    | zero =>
      intro bs vs h
      obtain ⟨rfl, rfl⟩ : [] = vs ∧ bs = rest := by simpa [getMany] using h
      exact ⟨rfl, rfl⟩
    | succ n ih =>
      intro bs vs h
      unfold getMany at h
      cases first : get bs with
      | error e => simp [first, bind, Except.bind] at h
      | ok w =>
        obtain ⟨v, r⟩ := w
        simp only [first, bind, Except.bind] at h
        cases others : getMany get n r with
        | error e => simp [others] at h
        | ok w =>
          obtain ⟨ws, r'⟩ := w
          obtain ⟨rfl, rfl⟩ : v :: ws = vs ∧ r' = rest := by simpa [others] using h
          obtain ⟨rfl, rfl⟩ := ih r ws others
          exact ⟨by rw [one first]; simp, rfl⟩
  unfold getList at h
  cases inner : getNat bs with
  | error e => simp [inner, bind, Except.bind] at h
  | ok w =>
    obtain ⟨n, r⟩ := w
    obtain ⟨rfl, rfl⟩ := many n r vs (by simpa [inner, bind, Except.bind] using h)
    rw [getNat_ok inner, putList, List.append_assoc]

theorem getGroup_ok {bs rest : Bytes} {g : GroupArg} (h : getGroup bs = .ok (g, rest)) : bs = putGroup g ++ rest := by
  unfold getGroup at h
  rcases e1 : getInt bs with _ | ⟨v1, r1⟩ <;> simp only [e1, bind, Except.bind] at h
  · cases h
  rcases e2 : getInt r1 with _ | ⟨v2, r2⟩ <;> simp only [e2] at h
  · cases h
  rcases e3 : getBytes r2 with _ | ⟨v3, r3⟩ <;> simp only [e3] at h
  · cases h
  obtain ⟨rfl, rfl⟩ : (⟨v1, v2, v3⟩ : GroupArg) = g ∧ r3 = rest := by simpa using h
  rw [getInt_ok e1, getInt_ok e2, getBytes_ok e3]
  simp [putGroup]

theorem getArgName_ok {bs rest : Bytes} {n : ArgName} (h : getArgName bs = .ok (n, rest)) :
    bs = putArgName n :: rest := by
  cases bs with
  | nil => cases h
  | cons t r =>
    simp only [getArgName, getByte_cons, bind, Except.bind] at h
    split at h
    next m found =>
      obtain ⟨rfl, rfl⟩ : m = n ∧ r = rest := by simpa using h
      obtain ⟨inside, at_t⟩ := List.getElem?_eq_some_iff.mp found
      have place : argNames.idxOf m = t.toNat := by
        rw [← at_t]
        exact List.Nodup.idxOf_getElem (by decide) _ inside
      rw [putArgName, place, BitVec.ofNat_toNat, BitVec.setWidth_eq]
    · cases h

theorem getArgVal_ok {bs rest : Bytes} {v : ArgVal} (h : getArgVal bs = .ok (v, rest)) : bs = putArgVal v ++ rest := by
  cases bs with
  | nil => cases h
  | cons t r =>
    simp only [getArgVal, getByte_cons, bind, Except.bind] at h
    split at h
    next zero =>
      rcases e : getInt r with _ | ⟨w, r'⟩ <;> simp only [e] at h
      · cases h
      obtain ⟨rfl, rfl⟩ : ArgVal.int w = v ∧ r' = rest := by simpa using h
      rw [zero, getInt_ok e]
      rfl
    split at h
    next isOne =>
      rcases e : getBytes r with _ | ⟨w, r'⟩ <;> simp only [e] at h
      · cases h
      obtain ⟨rfl, rfl⟩ : ArgVal.bytes w = v ∧ r' = rest := by simpa using h
      rw [isOne, getBytes_ok e]
      rfl
    split at h
    next two =>
      rcases e : getList getGroup r with _ | ⟨w, r'⟩ <;> simp only [e] at h
      · cases h
      obtain ⟨rfl, rfl⟩ : ArgVal.groups w = v ∧ r' = rest := by simpa using h
      rw [two, getList_ok getGroup_ok e]
      rfl
    · cases h

theorem getArg_ok {bs rest : Bytes} {a : Arg} (h : getArg bs = .ok (a, rest)) : bs = putArg a ++ rest := by
  unfold getArg at h
  rcases e1 : getArgName bs with _ | ⟨n, r1⟩ <;> simp only [e1, bind, Except.bind] at h
  · cases h
  rcases e2 : getArgVal r1 with _ | ⟨v, r2⟩ <;> simp only [e2] at h
  · cases h
  obtain ⟨rfl, rfl⟩ : (⟨n, v⟩ : Arg) = a ∧ r2 = rest := by simpa using h
  rw [getArgName_ok e1, getArgVal_ok e2]
  rfl

theorem opcode_operationOf {b : Byte} {o : Operation} (h : operationOf b = some o) : opcode o = b := by
  have found := List.find?_some h
  simpa using found

end Sys2Proof
end

