-- ==== Sys2Proof/Laws/State.lean ====
section
/-! SUPPORT. One lemma per field per named state change of Machine/Ops.lean, so that no proof unfolds one. -/

namespace Sys2Proof.Machine

@[simp] theorem finish_seq (r : Result) (s : State) : (finish r s).seq = s.seq := rfl
@[simp] theorem finish_session (r : Result) (s : State) : (finish r s).session = s.session := rfl
@[simp] theorem finish_rxbuf (r : Result) (s : State) : (finish r s).rxbuf = s.rxbuf := rfl
@[simp] theorem finish_bufCap (r : Result) (s : State) : (finish r s).bufCap = s.bufCap := rfl
@[simp] theorem finish_pending (r : Result) (s : State) : (finish r s).pending = s.pending := rfl
@[simp] theorem finish_result (r : Result) (s : State) : (finish r s).result = some r := rfl
@[simp] theorem finish_txout (r : Result) (s : State) : (finish r s).txout = s.txout := rfl
@[simp] theorem finish_rxout (r : Result) (s : State) : (finish r s).rxout = s.rxout := rfl

@[simp] theorem transmit_seq (f : Bytes) (q : Byte) (s : State) : (transmit f q s).seq = q := rfl
@[simp] theorem transmit_session (f : Bytes) (q : Byte) (s : State) : (transmit f q s).session = s.session := rfl
@[simp] theorem transmit_rxbuf (f : Bytes) (q : Byte) (s : State) : (transmit f q s).rxbuf = s.rxbuf := rfl
@[simp] theorem transmit_bufCap (f : Bytes) (q : Byte) (s : State) : (transmit f q s).bufCap = s.bufCap := rfl
@[simp] theorem transmit_pending (f : Bytes) (q : Byte) (s : State) : (transmit f q s).pending = s.pending := rfl
@[simp] theorem transmit_result (f : Bytes) (q : Byte) (s : State) : (transmit f q s).result = some (.okFrame f) := rfl
@[simp] theorem transmit_txout (f : Bytes) (q : Byte) (s : State) : (transmit f q s).txout = s.txout ++ [f] := rfl
@[simp] theorem transmit_rxout (f : Bytes) (q : Byte) (s : State) : (transmit f q s).rxout = s.rxout := rfl

@[simp] theorem receive_seq (b : Bytes) (es : List Event) (s : State) : (receive b es s).seq = s.seq := rfl
@[simp] theorem receive_session (b : Bytes) (es : List Event) (s : State) : (receive b es s).session = s.session := rfl
@[simp] theorem receive_rxbuf (b : Bytes) (es : List Event) (s : State) : (receive b es s).rxbuf = b := rfl
@[simp] theorem receive_bufCap (b : Bytes) (es : List Event) (s : State) : (receive b es s).bufCap = s.bufCap := rfl
@[simp] theorem receive_pending (b : Bytes) (es : List Event) (s : State) : (receive b es s).pending = s.pending := rfl
@[simp] theorem receive_result (b : Bytes) (es : List Event) (s : State) : (receive b es s).result = some (.okEvents es) := rfl
@[simp] theorem receive_txout (b : Bytes) (es : List Event) (s : State) : (receive b es s).txout = s.txout := rfl
@[simp] theorem receive_rxout (b : Bytes) (es : List Event) (s : State) : (receive b es s).rxout = s.rxout ++ es := rfl

@[simp] theorem endSession_seq (s : State) : (endSession s).seq = s.seq := rfl
@[simp] theorem endSession_session (s : State) : (endSession s).session = .closed := rfl
@[simp] theorem endSession_rxbuf (s : State) : (endSession s).rxbuf = [] := rfl
@[simp] theorem endSession_bufCap (s : State) : (endSession s).bufCap = s.bufCap := rfl
@[simp] theorem endSession_pending (s : State) : (endSession s).pending = s.pending := rfl
@[simp] theorem endSession_result (s : State) : (endSession s).result = some .ok := rfl
@[simp] theorem endSession_txout (s : State) : (endSession s).txout = s.txout := rfl
@[simp] theorem endSession_rxout (s : State) : (endSession s).rxout = s.rxout := rfl

@[simp] theorem startSession_seq (s : State) : (startSession s).seq = 0 := rfl
@[simp] theorem startSession_session (s : State) : (startSession s).session = .opened := rfl
@[simp] theorem startSession_rxbuf (s : State) : (startSession s).rxbuf = [] := rfl
@[simp] theorem startSession_bufCap (s : State) : (startSession s).bufCap = s.bufCap := rfl
@[simp] theorem startSession_pending (s : State) : (startSession s).pending = s.pending := rfl
@[simp] theorem startSession_result (s : State) : (startSession s).result = some .ok := rfl
@[simp] theorem startSession_txout (s : State) : (startSession s).txout = s.txout := rfl
@[simp] theorem startSession_rxout (s : State) : (startSession s).rxout = s.rxout := rfl

@[simp] theorem present_seq (b : Bytes) (s : State) : (present b s).seq = s.seq := rfl
@[simp] theorem present_session (b : Bytes) (s : State) : (present b s).session = s.session := rfl
@[simp] theorem present_rxbuf (b : Bytes) (s : State) : (present b s).rxbuf = s.rxbuf := rfl
@[simp] theorem present_bufCap (b : Bytes) (s : State) : (present b s).bufCap = s.bufCap := rfl
@[simp] theorem present_pending (b : Bytes) (s : State) : (present b s).pending = b :: s.pending := rfl
@[simp] theorem present_result (b : Bytes) (s : State) : (present b s).result = s.result := rfl
@[simp] theorem present_txout (b : Bytes) (s : State) : (present b s).txout = s.txout := rfl
@[simp] theorem present_rxout (b : Bytes) (s : State) : (present b s).rxout = s.rxout := rfl

/-! ### The presented transactions -/

@[simp] theorem takeTransaction_of_nil {s : State} (h : s.pending = []) : takeTransaction s = none := by
  simp [takeTransaction, h]

@[simp] theorem takeTransaction_of_cons {s : State} {b : Bytes} {bs : List Bytes} (h : s.pending = b :: bs) :
    takeTransaction s = some (b, { s with pending := bs }) := by
  simp [takeTransaction, h]

@[simp] theorem takeTransaction_present (b : Bytes) (s : State) : takeTransaction (present b s) = some (b, s) := rfl

/-! ### Answers -/

/-- `raise` and `answer` always complete, and change only the result. -/
theorem raise_eq (st : Status) (s : State) : raise st s = .next { s with result := some (.raised st) } := rfl

theorem answer_eq (r : Result) (s : State) : answer r s = .next { s with result := some r } := rfl

end Sys2Proof.Machine
end

