-- ==== Sys2Proof/Laws/Sum.lean ====
section
/-! SUPPORT. The checksum unit's sum is the total reduced mod 256, and what follows from that for the frames. -/

namespace Sys2Proof.Machine

open Safety

theorem foldl_add (b : Bytes) (a : Byte) : b.foldl (· + ·) a = a + BitVec.ofNat 8 (b.map BitVec.toNat).sum := by
  induction b generalizing a with
  | nil => simp
  | cons x b ih =>
    rw [List.foldl_cons, ih, List.map_cons, List.sum_cons]
    apply BitVec.eq_of_toNat_eq
    simp only [BitVec.toNat_add, BitVec.toNat_ofNat]
    omega

/-- The stepwise sum mod 256 is the whole sum reduced once (R47, R48). -/
theorem sumAll_eq (b : Bytes) : sumAll b = sumMod256 b := by
  rw [sumAll, foldl_add, sumMod256]
  simp

theorem sumMod256_append (a b : Bytes) : sumMod256 (a ++ b) = sumMod256 a + sumMod256 b := by
  apply BitVec.eq_of_toNat_eq
  simp only [sumMod256, List.map_append, List.sum_append, BitVec.toNat_add, BitVec.toNat_ofNat]
  omega

theorem sumMod256_perm {a b : Bytes} (h : a.Perm b) : sumMod256 a = sumMod256 b := by
  rw [sumMod256, sumMod256, (h.map _).sum_eq]

/-- The range of R47 is the sum of the slice. -/
theorem sumRange_eq (b : Bytes) (start stop : Nat) :
    sumRange b start stop = sumMod256 ((b.drop start).take (stop - start)) := by
  rw [sumRange, sumAll_eq]

/-- The range from an index to the end. -/
theorem sumRange_to_end (b : Bytes) (start : Nat) : sumRange b start b.length = sumMod256 (b.drop start) := by
  rw [sumRange_eq, List.take_of_length_le (by simp)]

/-! ### Length fields -/

theorem hiByte_lengthField {n : Nat} (h : n ≤ 65535) : hiByte (lengthField n) = highByte n := by
  apply BitVec.eq_of_toNat_eq
  simp only [hiByte, lengthField, highByte, BitVec.extractLsb'_toNat, BitVec.toNat_ofNat, Nat.shiftRight_eq_div_pow,
    Nat.reducePow]
  omega

theorem loByte_lengthField {n : Nat} : loByte (lengthField n) = lowByte n := by
  apply BitVec.eq_of_toNat_eq
  simp only [loByte, lengthField, lowByte, BitVec.extractLsb'_toNat, BitVec.toNat_ofNat, Nat.shiftRight_eq_div_pow,
    Nat.reducePow, Nat.pow_zero, Nat.div_one]
  omega

theorem bigEndian_lengthField {n : Nat} (h : n ≤ 65535) : bigEndian (lengthField n) = [highByte n, lowByte n] := by
  rw [bigEndian, hiByte_lengthField h, loByte_lengthField]

/-- The two bytes of a length that fits give it back (R43). -/
theorem high_low {n : Nat} (h : n ≤ 65535) : (highByte n).toNat * 256 + (lowByte n).toNat = n := by
  simp only [highByte, lowByte, BitVec.toNat_ofNat]
  omega

/-! ### Frames -/

/-- `PACK` on a payload that fits gives the frame of R34. -/
theorem packFrame_of_le {op : Byte} {p : Bytes} {q : Byte} (h : p.length ≤ 65535) :
    packFrame op p q = some (txFrame op p q) := by
  have fits : p.length ≤ maxPayload := h
  simp only [packFrame, if_pos fits, txFrame, bigEndian_lengthField h, sumRange_to_end]
  simp [hdrOut, sync, tag, verOut, term]

theorem packFrame_of_gt {op : Byte} {p : Bytes} {q : Byte} (h : 65535 < p.length) : packFrame op p q = none := by
  have tooLong : ¬ p.length ≤ maxPayload := by simp only [maxPayload]; omega
  simp only [packFrame, if_neg tooLong]

@[simp] theorem txFrame_length (op : Byte) (p : Bytes) (q : Byte) : (txFrame op p q).length = 10 + p.length := by
  simp [txFrame]
  omega

@[simp] theorem rxBytes_length (op : Byte) (p : Bytes) (q cs t : Byte) : (rxBytes op p q cs t).length = 11 + p.length := by
  simp [rxBytes]
  omega

/-- The arrival row's bytes are the frame of R36, for a payload that fits. -/
theorem rxFrameBytes_of_le {op : Byte} {p : Bytes} {q cs t : Byte} (h : p.length ≤ 65535) :
    rxFrameBytes op p q cs t = rxBytes op p q cs t := by
  simp [rxFrameBytes, rxBytes, bigEndian_lengthField h, hdrIn, sync, tag, verIn]

end Sys2Proof.Machine
end

