-- ==== Sys2Proof/Laws/Decoder.lean ====
section
/-! SUPPORT. What one iteration of the decode loop can do, said once, and what a pass does from that: it always ends, in a
wait condition, having dropped bytes from the front. -/

namespace Sys2Proof.Machine

open Safety

/-! ### Reads inside the buffer -/

theorem readByte_of_lt {b : Bytes} {i : Nat} (h : i < b.length) : readByte b i = some (b.getD i 0) := by
  simp [readByte, h]

theorem memRead_of_le {b : Bytes} {i n : Nat} (h : i + n ≤ b.length) : memRead b i n = some ((b.drop i).take n) := by
  simp [memRead, h]

/-! ### The resync mark -/

theorem isPrefixOf_resyncPat (b : Bytes) : resyncPat.isPrefixOf b = true ↔ MarkAt b 0 := by
  rw [List.isPrefixOf_iff_prefix, List.prefix_iff_eq_take]
  exact eq_comm

/-- The search finds the lowest complete mark (R80). -/
theorem findMark_eq_some {b : Bytes} {k : Nat} : findMark b = some k ↔ MarkAt b k ∧ ∀ j < k, ¬ MarkAt b j := by
  induction b generalizing k with
  | nil => simp [findMark, MarkAt]
  | cons x b ih =>
    have shift (j : Nat) : MarkAt (x :: b) (j + 1) ↔ MarkAt b j := by simp [MarkAt]
    unfold findMark
    split
    next here =>
      have at0 := (isPrefixOf_resyncPat _).mp here
      constructor
      · rintro h
        obtain rfl := Option.some.inj h
        exact ⟨at0, by omega⟩
      · rintro ⟨-, lowest⟩
        rcases k with _ | k
        · rfl
        · exact absurd at0 (lowest 0 (by omega))
    next notHere =>
      have not0 : ¬ MarkAt (x :: b) 0 := fun h => notHere ((isPrefixOf_resyncPat _).mpr h)
      rw [Option.map_eq_some_iff]
      constructor
      · rintro ⟨j, found, rfl⟩
        obtain ⟨atj, lowest⟩ := ih.mp found
        refine ⟨(shift j).mpr atj, fun i hi => ?_⟩
        rcases i with _ | i
        · exact not0
        · exact fun h => lowest i (by omega) ((shift i).mp h)
      · rintro ⟨atk, lowest⟩
        rcases k with _ | k
        · exact absurd atk not0
        · exact ⟨k, ih.mpr ⟨(shift k).mp atk, fun i hi h => lowest (i + 1) (by omega) ((shift i).mpr h)⟩, rfl⟩

theorem findMark_eq_none {b : Bytes} : findMark b = none ↔ ∀ k, ¬ MarkAt b k := by
  constructor
  · intro none k
    induction k using Nat.strong_induction_on with
    | _ k ih =>
      intro atk
      simp [findMark_eq_some.mpr ⟨atk, ih⟩] at none
  · intro all
    rcases e : findMark b with _ | k
    · rfl
    · exact absurd (findMark_eq_some.mp e).1 (all k)

/-- A mark has all its six bytes inside. -/
theorem MarkAt_length {b : Bytes} {k : Nat} (h : MarkAt b k) : k + 6 ≤ b.length := by
  have := congrArg List.length h
  simp only [List.length_take, List.length_drop, List.length_cons, List.length_nil] at this
  omega

/-! ### One iteration -/

theorem nextMove_short {b : Bytes} (h : b.length ≤ 10) : nextMove b = some (.wait .short) := by
  simp [nextMove, h]

theorem nextMove_noHeader {b : Bytes} (long : 11 ≤ b.length) (h : ¬ HasHeader b) : nextMove b = some (resyncMove b) := by
  have notShort : ¬ b.length ≤ 10 := by omega
  have read : memRead b 0 5 = some (b.take 5) := by
    rw [memRead_of_le (by omega), List.drop_zero]
  have mismatch : ¬ b.take 5 = hdrIn := h
  simp only [nextMove, if_neg notShort, read, if_neg mismatch]

theorem nextMove_header {b : Bytes} (long : 11 ≤ b.length) (h : HasHeader b) : nextMove b = headerMove b := by
  have notShort : ¬ b.length ≤ 10 := by omega
  have read : memRead b 0 5 = some (b.take 5) := by
    rw [memRead_of_le (by omega), List.drop_zero]
  have here : b.take 5 = hdrIn := h
  simp only [nextMove, if_neg notShort, read, if_pos here]

theorem headerMove_body {b : Bytes} (long : 11 ≤ b.length) (h : b.length < 11 + claimedLength b) :
    headerMove b = some (.wait .body) := by
  have wait : b.length < 11 + be16 (b.getD 6 0) (b.getD 7 0) := h
  simp only [headerMove, readByte_of_lt (show 6 < b.length by omega), readByte_of_lt (show 7 < b.length by omega),
    Option.bind_eq_bind, Option.bind_some, if_pos wait]

/-- The event of a complete frame (R76, R77, R78): the first `11 + L` bytes are `f`. -/
def frameEvent (b : Bytes) : Event :=
  let f := b.take (11 + claimedLength b)
  if sumRange f 3 (9 + claimedLength b) = f.getD (9 + claimedLength b) 0
  then .emit ((f.drop 8).take (claimedLength b)) else .framing .badChecksum

theorem headerMove_frame {b : Bytes} (h : 11 + claimedLength b ≤ b.length)
    (terminated : b.getD (10 + claimedLength b) 0 = 0x16) :
    headerMove b = some (.drop (11 + claimedLength b) (some (frameEvent b))) := by
  have notWait : ¬ b.length < 11 + be16 (b.getD 6 0) (b.getD 7 0) := by
    have : 11 + be16 (b.getD 6 0) (b.getD 7 0) ≤ b.length := h
    omega
  have isTerm : b.getD (10 + be16 (b.getD 6 0) (b.getD 7 0)) 0 = term := terminated
  have whole : (b.take (11 + claimedLength b)).length = 11 + claimedLength b := by
    rw [List.length_take]
    omega
  have frame : frameMove b (claimedLength b) = some (.drop (11 + claimedLength b) (some (frameEvent b))) := by
    simp only [frameMove, memRead_of_le (show 0 + (11 + claimedLength b) ≤ b.length by omega), List.drop_zero,
      Option.bind_eq_bind, Option.bind_some,
      readByte_of_lt (show 9 + claimedLength b < (b.take (11 + claimedLength b)).length by omega),
      memRead_of_le (show 8 + claimedLength b ≤ (b.take (11 + claimedLength b)).length by omega), frameEvent]
    split <;> rfl
  simp only [headerMove, readByte_of_lt (show 6 < b.length by omega), readByte_of_lt (show 7 < b.length by omega),
    Option.bind_eq_bind, Option.bind_some, if_neg notWait,
    readByte_of_lt (show 10 + be16 (b.getD 6 0) (b.getD 7 0) < b.length by omega), if_pos isTerm]
  exact frame

theorem headerMove_badTerminator {b : Bytes} (h : 11 + claimedLength b ≤ b.length)
    (bad : b.getD (10 + claimedLength b) 0 ≠ 0x16) :
    headerMove b = some (.drop (10 + claimedLength b) (some (.framing .badTerminator))) := by
  have notWait : ¬ b.length < 11 + be16 (b.getD 6 0) (b.getD 7 0) := by
    have : 11 + be16 (b.getD 6 0) (b.getD 7 0) ≤ b.length := h
    omega
  have notTerm : ¬ b.getD (10 + be16 (b.getD 6 0) (b.getD 7 0)) 0 = term := bad
  simp only [headerMove, readByte_of_lt (show 6 < b.length by omega), readByte_of_lt (show 7 < b.length by omega),
    Option.bind_eq_bind, Option.bind_some, if_neg notWait,
    readByte_of_lt (show 10 + be16 (b.getD 6 0) (b.getD 7 0) < b.length by omega), if_neg notTerm]
  rfl

/-- Everything one iteration can do (R71): no read fails; it waits, in the condition its wait names, or it drops at least
one byte of the buffer. -/
theorem nextMove_cases (b : Bytes) :
    (WaitShort b ∧ nextMove b = some (.wait .short)) ∨
    (WaitBody b ∧ nextMove b = some (.wait .body)) ∨
    (WaitResync b ∧ nextMove b = some (.wait .resync)) ∨
    (11 ≤ b.length ∧ HasHeader b ∧ 11 + claimedLength b ≤ b.length ∧ b.getD (10 + claimedLength b) 0 = 0x16 ∧
      nextMove b = some (.drop (11 + claimedLength b) (some (frameEvent b)))) ∨
    (11 ≤ b.length ∧ HasHeader b ∧ 11 + claimedLength b ≤ b.length ∧ b.getD (10 + claimedLength b) 0 ≠ 0x16 ∧
      nextMove b = some (.drop (10 + claimedLength b) (some (.framing .badTerminator)))) ∨
    (11 ≤ b.length ∧ ¬ HasHeader b ∧ ∃ k, MarkAt b k ∧ (∀ j < k, ¬ MarkAt b j) ∧
      nextMove b = some (.drop (k + 1) none)) := by
  by_cases short : b.length ≤ 10
  · exact Or.inl ⟨short, nextMove_short short⟩
  have long : 11 ≤ b.length := by omega
  by_cases header : HasHeader b
  · rw [nextMove_header long header]
    by_cases body : b.length < 11 + claimedLength b
    · exact Or.inr (Or.inl ⟨⟨long, header, body⟩, headerMove_body long body⟩)
    · have complete : 11 + claimedLength b ≤ b.length := by omega
      by_cases terminated : b.getD (10 + claimedLength b) 0 = 0x16
      · exact Or.inr (Or.inr (Or.inr (Or.inl
          ⟨long, header, complete, terminated, headerMove_frame complete terminated⟩)))
      · exact Or.inr (Or.inr (Or.inr (Or.inr (Or.inl
          ⟨long, header, complete, terminated, headerMove_badTerminator complete terminated⟩))))
  · rw [nextMove_noHeader long header]
    rcases found : findMark b with _ | k
    · exact Or.inr (Or.inr (Or.inl ⟨⟨long, header, findMark_eq_none.mp found⟩, by rw [resyncMove, found]⟩))
    · obtain ⟨here, lowest⟩ := findMark_eq_some.mp found
      exact Or.inr (Or.inr (Or.inr (Or.inr (Or.inr
        ⟨long, header, k, here, lowest, by rw [resyncMove, found]⟩))))

/-- A dropping iteration drops at least one byte and no more than there are. -/
theorem nextMove_drop {b : Bytes} {n : Nat} {e : Option Event} (h : nextMove b = some (.drop n e)) :
    0 < n ∧ n ≤ b.length := by
  rcases nextMove_cases b with ⟨-, m⟩ | ⟨-, m⟩ | ⟨-, m⟩ | ⟨-, -, complete, -, m⟩ | ⟨-, -, complete, -, m⟩ |
    ⟨-, -, k, here, -, m⟩ <;> rw [m] at h
  · cases h
  · cases h
  · cases h
  · obtain ⟨rfl, -⟩ : 11 + claimedLength b = n ∧ some (frameEvent b) = e := by simpa using h
    omega
  · obtain ⟨rfl, -⟩ : 10 + claimedLength b = n ∧ some (Event.framing .badTerminator) = e := by simpa using h
    omega
  · obtain ⟨rfl, -⟩ : k + 1 = n ∧ none = e := by simpa using h
    have := MarkAt_length here
    omega

/-- A waiting iteration is in a wait condition. -/
theorem nextMove_wait {b : Bytes} {w : Wait} (h : nextMove b = some (.wait w)) : Waiting b := by
  rcases nextMove_cases b with ⟨c, -⟩ | ⟨c, -⟩ | ⟨c, -⟩ | ⟨-, -, -, -, m⟩ | ⟨-, -, -, -, m⟩ | ⟨-, -, k, -, -, m⟩
  · exact Or.inl c
  · exact Or.inr (Or.inl c)
  · exact Or.inr (Or.inr c)
  all_goals
    rw [m] at h
    cases h

/-- A buffer in a wait condition makes the pass end at once. -/
theorem nextMove_of_waiting {b : Bytes} (h : Waiting b) : ∃ w, nextMove b = some (.wait w) := by
  rcases h with short | ⟨long, header, body⟩ | ⟨long, header, noMark⟩
  · exact ⟨.short, nextMove_short short⟩
  · exact ⟨.body, by rw [nextMove_header long header, headerMove_body long body]⟩
  · exact ⟨.resync, by rw [nextMove_noHeader long header, resyncMove, findMark_eq_none.mpr noMark]⟩

/-! ### The pass -/

/-- Any fuel above the buffer's length gives the same pass. -/
theorem decodeLoop_fuel {b : Bytes} {m n : Nat} (hm : b.length < m) (hn : b.length < n) :
    decodeLoop m b = decodeLoop n b := by
  induction m generalizing b n with
  | zero => omega
  | succ m ih =>
    cases n with
    | zero => omega
    | succ n =>
      unfold decodeLoop
      rcases e : nextMove b with _ | (w | ⟨k, ev⟩)
      · rfl
      · rfl
      · obtain ⟨pos, le⟩ := nextMove_drop e
        have shorter : (bufDrop k b).length = b.length - k := by simp [bufDrop]
        simp only
        rw [ih (b := bufDrop k b) (n := n) (by omega) (by omega)]

theorem decodePass_wait {b : Bytes} {w : Wait} (h : nextMove b = some (.wait w)) : decodePass b = .ok (b, []) := by
  simp [decodePass, decodeLoop, h]

/-- A pass whose first iteration drops is that iteration, then the pass over what is left. -/
theorem decodePass_drop {b : Bytes} {n : Nat} {e : Option Event} (h : nextMove b = some (.drop n e)) :
    decodePass b = match decodePass (b.drop n) with
      | .error f => .error f
      | .ok (rest, es) => .ok (rest, e.toList ++ es) := by
  obtain ⟨pos, le⟩ := nextMove_drop h
  have shorter : (b.drop n).length = b.length - n := by simp
  have same : decodePass (b.drop n) = decodeLoop b.length (b.drop n) := decodeLoop_fuel (by omega) (by omega)
  rw [same]
  rcases pass : decodeLoop b.length (b.drop n) with f | ⟨rest, es⟩ <;> simp [decodePass, decodeLoop, h, bufDrop, pass]

/-- A pass always ends (R82), in a wait condition, with bytes dropped from the front only. -/
theorem decodePass_ends (b : Bytes) : ∃ k es, decodePass b = .ok (b.drop k, es) ∧ Waiting (b.drop k) := by
  induction length : b.length using Nat.strong_induction_on generalizing b with
  | _ m ih =>
    rcases e : nextMove b with _ | (w | ⟨n, ev⟩)
    · rcases nextMove_cases b with ⟨-, h⟩ | ⟨-, h⟩ | ⟨-, h⟩ | ⟨-, -, -, -, h⟩ | ⟨-, -, -, -, h⟩ | ⟨-, -, k, -, -, h⟩ <;>
        rw [h] at e <;> cases e
    · exact ⟨0, [], by simpa using decodePass_wait e, by simpa using nextMove_wait e⟩
    · obtain ⟨pos, le⟩ := nextMove_drop e
      obtain ⟨k, es, pass, waits⟩ := ih (b.drop n).length (by simp; omega) (b.drop n) rfl
      rw [List.drop_drop] at pass waits
      exact ⟨n + k, ev.toList ++ es, by rw [decodePass_drop e, pass], waits⟩

theorem decodePass_waiting {b : Bytes} (h : Waiting b) : decodePass b = .ok (b, []) := by
  obtain ⟨w, e⟩ := nextMove_of_waiting h
  exact decodePass_wait e

/-! ### A chunk -/

theorem overflows_eq_false {cap : Option Nat} {b c : Bytes} :
    overflows cap b c = false ↔ ∀ n, cap = some n → b.length + c.length ≤ n := by
  cases cap with
  | none => simp [overflows]
  | some n => simp [overflows]

theorem feedChunk_closed {s : State} (c : Bytes) (h : s.session = .closed) :
    feedChunk c s = .next (finish (.raised .closed) s) := by
  simp [feedChunk, h, raise, answer]

theorem feedChunk_overflow {s : State} {c : Bytes} (h : s.session = .opened) (full : overflows s.bufCap s.rxbuf c = true) :
    feedChunk c s = .refused .bufOverflow := by
  simp [feedChunk, h, full, refuse]

theorem feedChunk_pass {s : State} {c rest : Bytes} {es : List Event} (h : Admits s c.length)
    (pass : decodePass (s.rxbuf ++ c) = .ok (rest, es)) : feedChunk c s = .next (receive rest es s) := by
  simp [feedChunk, h.1, overflows_eq_false.mpr h.2, bufAppend, pass]

/-- A chunk's effect reads neither `SEQ` nor anything else of the transmit path, nor the last result (R30, R20). -/
theorem feedChunk_transmitPath (c : Bytes) (s : State) (q : Byte) (fs : List Bytes) (r : Option Result) :
    feedChunk c { s with seq := q, txout := fs, result := r }
      = mapNext (fun t => { t with seq := q, txout := fs }) (feedChunk c s) := by
  obtain ⟨_, session, buf, cap, pending, result, txout, rxout⟩ := s
  cases session with
  | closed => rfl
  | opened =>
    simp only [feedChunk]
    split
    · rfl
    · split <;> rfl

/-- Everything a chunk can do (R71): it is rejected in a closed session, it is refused past the capacity, or a pass runs. -/
theorem feedChunk_cases (c : Bytes) (s : State) :
    (s.session = .closed ∧ feedChunk c s = .next (finish (.raised .closed) s)) ∨
    (s.session = .opened ∧ (∃ cap, s.bufCap = some cap ∧ cap < s.rxbuf.length + c.length) ∧
      feedChunk c s = .refused .bufOverflow) ∨
    (Admits s c.length ∧ ∃ k es, decodePass (s.rxbuf ++ c) = .ok ((s.rxbuf ++ c).drop k, es) ∧
      Waiting ((s.rxbuf ++ c).drop k) ∧ feedChunk c s = .next (receive ((s.rxbuf ++ c).drop k) es s)) := by
  rcases session : s.session with _ | _
  · cases full : overflows s.bufCap s.rxbuf c with
    | true =>
      refine Or.inr (Or.inl ⟨rfl, ?_, feedChunk_overflow session full⟩)
      cases cap : s.bufCap with
      | none => simp [overflows, cap] at full
      | some n => exact ⟨n, rfl, by simpa [overflows, cap] using full⟩
    | false =>
      have admits : Admits s c.length := ⟨session, overflows_eq_false.mp full⟩
      obtain ⟨k, es, pass, waits⟩ := decodePass_ends (s.rxbuf ++ c)
      exact Or.inr (Or.inr ⟨admits, k, es, pass, waits, feedChunk_pass admits pass⟩)
  · exact Or.inl ⟨rfl, feedChunk_closed c session⟩

end Sys2Proof.Machine
end

