-- ==== Sys2Proof/Laws/Operands.lean ====
section
/-! SUPPORT. The operand forms accept exactly the well-formed operands, and what they make of them. -/

namespace Sys2Proof.Machine

open Safety

/-! ### The types of R57 -/

theorem asU8_isSome (v : Int) : (asU8 v).isSome = isU8 v := by
  unfold asU8 isU8
  split <;> simp_all

theorem asU16_isSome (v : Int) : (asU16 v).isSome = isU16 v := by
  unfold asU16 isU16
  split <;> simp_all

theorem asNat_isSome (v : Int) : (asNat v).isSome = isNat v := by
  unfold asNat isNat
  split <;> simp_all

theorem asPwType_isSome (v : Int) : (asPwType v).isSome = isPwType v := by
  unfold asPwType isPwType
  split
  · simp_all
  split
  · simp_all
  split <;> simp_all

@[simp] theorem asU8_natCast {n : Nat} (h : n ≤ 255) : asU8 n = some (BitVec.ofNat 8 n) := by
  simp [asU8, h]

@[simp] theorem asU16_natCast {n : Nat} (h : n ≤ 65535) : asU16 n = some (BitVec.ofNat 16 n) := by
  have : (n : Int) ≤ 65535 := by omega
  simp [asU16, this]

@[simp] theorem asNat_natCast (n : Nat) : asNat n = some n := by
  simp [asNat]

/-- A number that names a `PwType` is encoded as itself (R42). -/
theorem asPwType_num {v : Int} {pt : PwType} (h : asPwType v = some pt) : pwNum pt = BitVec.ofInt 8 v := by
  unfold asPwType at h
  split at h
  · obtain rfl : PwType.a = pt := by simpa using h
    simp [pwNum, *]
  split at h
  · obtain rfl : PwType.b = pt := by simpa using h
    simp [pwNum, *]
  split at h
  · obtain rfl : PwType.noChange = pt := by simpa using h
    simp [pwNum, *]
  · cases h

theorem asU8_value {v : Int} {b : Byte} (h : asU8 v = some b) : b = BitVec.ofInt 8 v := by
  unfold asU8 at h
  split at h
  next range =>
    obtain rfl : BitVec.ofNat 8 v.toNat = b := by simpa using h
    obtain ⟨n, rfl⟩ := Int.eq_ofNat_of_zero_le range.1
    simp
  · cases h

/-- The number of a `PwType` in range. -/
theorem exists_asPwType {n : Nat} (h : n ≤ 2) : ∃ pt, asPwType n = some pt ∧ pwNum pt = BitVec.ofNat 8 n := by
  obtain rfl | rfl | rfl : n = 0 ∨ n = 1 ∨ n = 2 := by omega
  · exact ⟨.a, rfl, rfl⟩
  · exact ⟨.b, rfl, rfl⟩
  · exact ⟨.noChange, rfl, rfl⟩

/-! ### Groups -/

theorem asGroup_isSome (g : GroupArg) : (asGroup g).isSome = g.wellFormed := by
  unfold asGroup GroupArg.wellFormed
  rw [← asU8_isSome, ← asPwType_isSome]
  cases asU8 g.block with
  | none => simp
  | some b =>
    cases asPwType g.passwordType with
    | none => simp
    | some pt =>
      by_cases six : g.password.length = 6 <;> simp [six]

/-- A group's 8 bytes are its fields (R42). -/
theorem groupBytes_of_asGroup {g : GroupArg} {pg : PasswordGroup} (h : asGroup g = some pg) :
    groupBytes pg = [BitVec.ofInt 8 g.block, BitVec.ofInt 8 g.passwordType] ++ g.password := by
  unfold asGroup at h
  cases e1 : asU8 g.block with
  | none => simp [e1] at h
  | some b =>
    cases e2 : asPwType g.passwordType with
    | none => simp [e1, e2] at h
    | some pt =>
      simp only [e1, e2, Option.bind_eq_bind, Option.bind_some] at h
      split at h
      · obtain rfl := Option.some.inj h
        simp [groupBytes, asPwType_num e2, asU8_value e1]
      · cases h

theorem mapM_asGroup_isSome (gs : List GroupArg) : (gs.mapM asGroup).isSome = gs.all GroupArg.wellFormed := by
  induction gs with
  | nil => rfl
  | cons g gs ih =>
    rw [List.mapM_cons, List.all_cons, ← asGroup_isSome, ← ih]
    cases asGroup g with
    | none => rfl
    | some pg => cases gs.mapM asGroup <;> rfl

theorem asGroups_isSome (gs : Option (List GroupArg)) : (asGroups gs).isSome = groupsWellFormed gs := by
  cases gs with
  | none => rfl
  | some gs =>
    by_cases few : gs.length ≤ 255 <;> simp [asGroups, groupsWellFormed, few, mapM_asGroup_isSome]

theorem mapM_asGroup_some {gs : List GroupArg} {pgs : List PasswordGroup} (h : gs.mapM asGroup = some pgs) :
    pgs.length = gs.length ∧
    pgs.flatMap groupBytes
      = gs.flatMap (fun g => [BitVec.ofInt 8 g.block, BitVec.ofInt 8 g.passwordType] ++ g.password) := by
  induction gs generalizing pgs with
  | nil =>
    obtain rfl : [] = pgs := by simpa using h
    exact ⟨rfl, rfl⟩
  | cons g gs ih =>
    rw [List.mapM_cons] at h
    cases e1 : asGroup g with
    | none => simp [e1] at h
    | some pg =>
      cases e2 : gs.mapM asGroup with
      | none => simp [e1, e2] at h
      | some rest =>
        obtain rfl : pg :: rest = pgs := by simpa [e1, e2] using h
        obtain ⟨len, bytes⟩ := ih e2
        exact ⟨by simp [len], by rw [List.flatMap_cons, List.flatMap_cons, bytes, groupBytes_of_asGroup e1]⟩

theorem asGroups_length {gs : Option (List GroupArg)} {pgs : List PasswordGroup} (h : asGroups gs = some (some pgs)) :
    pgs.length ≤ 255 := by
  cases gs with
  | none => simp [asGroups] at h
  | some gs =>
    by_cases few : gs.length ≤ 255
    · have mapped : gs.mapM asGroup = some pgs := by simpa [asGroups, few] using h
      have := (mapM_asGroup_some mapped).1
      omega
    · simp [asGroups, few] at h

/-! ### beeperAndLed -/

theorem asOptional_isSome {α : Type} {as : Int → Option α} {p : Int → Bool} (h : ∀ v, (as v).isSome = p v)
    (o : Option Int) : (asOptional as o).isSome = unsetOr p o := by
  cases o with
  | none => rfl
  | some v => simp [asOptional, unsetOr, h]

theorem asU16_eq_zero {v : Int} {t : Half} (h : asU16 v = some t) : t = 0 ↔ v = 0 := by
  unfold asU16 at h
  split at h
  next range =>
    obtain rfl : BitVec.ofNat 16 v.toNat = t := by simpa using h
    constructor
    · intro zero
      have : v.toNat % 65536 = 0 := by simpa using congrArg BitVec.toNat zero
      omega
    · rintro rfl
      rfl
  · cases h

theorem beeperAndLedCommand_isSome (bt bc lt lf : Option Int) :
    (beeperAndLedCommand bt bc lt lf).isSome = beeperWellFormed bt bc lt lf := by
  unfold beeperAndLedCommand beeperWellFormed
  rw [← asOptional_isSome asU16_isSome bt, ← asOptional_isSome asU8_isSome bc, ← asOptional_isSome asU16_isSome lt,
    ← asOptional_isSome asU8_isSome lf]
  rcases ebt : asOptional asU16 bt with _ | t
  · simp
  rcases ebc : asOptional asU8 bc with _ | c
  · simp
  rcases elt : asOptional asU16 lt with _ | l
  · simp
  rcases elf : asOptional asU8 lf with _ | f
  · simp
  have present {α : Type} {as : Int → Option α} {o : Option Int} {x : Option α} (h : asOptional as o = some x) :
      x.isSome = o.isSome := by
    cases o with
    | none => simp_all [asOptional]
    | some v =>
      cases e : as v with
      | none => simp [asOptional, e] at h
      | some y =>
        obtain rfl : some y = x := by simpa [asOptional, e] using h
        rfl
  have hc := present ebc
  have hl := present elt
  have hf := present elf
  cases bt with
  | none =>
    obtain rfl : t = none := by simpa [asOptional] using ebt.symm
    rfl
  | some v =>
    cases e : asU16 v with
    | none => simp [asOptional, e] at ebt
    | some h =>
      obtain rfl : some h = t := by simpa [asOptional, e] using ebt
      have zero := asU16_eq_zero e
      by_cases z : v = 0
      · have hz := zero.mpr z
        simp [z, hz]
      · have hz : ¬ h = 0#16 := fun x => z (zero.mp x)
        simp only [Option.bind_eq_bind, Option.bind_some, Option.isSome_some, Bool.true_and, ← hc, ← hl, ← hf]
        cases c <;> cases l <;> cases f <;> simp [z, hz]

/-! ### Named arguments -/

theorem findArg_eq_some {args : List Arg} (once : (args.map Arg.name).Nodup) {n : ArgName} {v : ArgVal} :
    findArg n args = some v ↔ (⟨n, v⟩ : Arg) ∈ args := by
  induction args with
  | nil => simp [findArg]
  | cons a as ih =>
    obtain ⟨notIn, once⟩ := List.nodup_cons.mp once
    by_cases same : a.name = n
    · subst same
      simp only [findArg, if_pos, List.mem_cons]
      constructor
      · intro h
        left
        rw [← Option.some.inj h]
      · rintro (h | h)
        · rw [← h]
        · exact absurd (List.mem_map_of_mem (f := Arg.name) h) notIn
    · simp only [findArg, same, if_false, List.mem_cons, ih once]
      constructor
      · exact Or.inr
      · rintro (h | h)
        · exact absurd (by rw [← h]) same
        · exact h

theorem findArg_eq_none {args : List Arg} {n : ArgName} : findArg n args = none ↔ n ∉ args.map Arg.name := by
  induction args with
  | nil => simp [findArg]
  | cons a as ih =>
    by_cases same : a.name = n
    · simp [findArg, same]
    · have : n ≠ a.name := fun h => same h.symm
      simp [findArg, same, ih, this]

/-- Whether a named argument is missing, is of its type, or is not. -/
theorem findArg_perm {args args' : List Arg} (h : args.Perm args') (once : (args.map Arg.name).Nodup) (n : ArgName) :
    findArg n args = findArg n args' := by
  have once' : (args'.map Arg.name).Nodup := (h.map _).nodup_iff.mp once
  apply Option.ext
  intro v
  rw [findArg_eq_some once, findArg_eq_some once']
  exact h.mem_iff

/-- `onlyOnce` in words. -/
theorem onlyOnce_iff {names : List ArgName} {args : List Arg} :
    onlyOnce names args = true ↔ (args.map Arg.name).Nodup ∧ ∀ a ∈ args, a.name ∈ names := by
  simp [onlyOnce]

theorem onlyOnce_perm {args args' : List Arg} (h : args.Perm args') (names : List ArgName) :
    onlyOnce names args = onlyOnce names args' := by
  have : onlyOnce names args = true ↔ onlyOnce names args' = true := by
    rw [onlyOnce_iff, onlyOnce_iff, (h.map Arg.name).nodup_iff]
    constructor <;> rintro ⟨once, all⟩ <;> exact ⟨once, fun a ha => all a (by simpa [h.mem_iff] using ha)⟩
  rcases hx : onlyOnce names args <;> rcases hy : onlyOnce names args' <;> simp_all

/-- With every name once and among `names`, all arguments are in their types if those found under `names` are. -/
theorem all_wellFormed_iff {names : List ArgName} {args : List Arg} (h : onlyOnce names args = true) :
    args.all Arg.wellFormed = true ↔ ∀ n ∈ names, ∀ v, findArg n args = some v → Arg.wellFormed ⟨n, v⟩ = true := by
  obtain ⟨once, named⟩ := onlyOnce_iff.mp h
  rw [List.all_eq_true]
  constructor
  · intro all n _ v found
    exact all _ ((findArg_eq_some once).mp found)
  · intro all a ha
    exact all a.name (named a ha) a.value ((findArg_eq_some once).mpr ha)

end Sys2Proof.Machine
end

