-- ==== Sys2Proof/Laws/Send.lean ====
section
/-! SUPPORT. What a `SEND` can do, said once: it is refused exactly when ill-formed; otherwise it is one command, which
either raises a status and changes nothing else, or hands over the frame of its opcode with the next sequence value. -/

namespace Sys2Proof.Machine

open Safety

/-! ### `SEND(operation, args)` accepts exactly the well-formed arguments -/

theorem optionalInt_eq {n : ArgName} {args : List Arg} :
    optionalInt n args = match findArg n args with
      | none => some none
      | some (.int v) => some (some v)
      | some (.bytes _) => none
      | some (.groups _) => none := by
  unfold optionalInt
  rcases findArg n args with _ | (_ | _ | _) <;> rfl

/-- A name stands in the list exactly if it is found. -/
theorem mem_names_iff {args : List Arg} {n : ArgName} : n ∈ args.map Arg.name ↔ (findArg n args).isSome = true := by
  rw [← not_iff_not, ← findArg_eq_none]
  cases findArg n args <;> simp

theorem beeperTimeUnsetOrZero_iff {args : List Arg} (once : (args.map Arg.name).Nodup) :
    beeperTimeUnsetOrZero args = true ↔ ∀ v, findArg .beeperTime args = some v → v = .int 0 := by
  simp only [beeperTimeUnsetOrZero, List.all_eq_true, Bool.or_eq_true, bne_iff_ne, beq_iff_eq]
  constructor
  · intro all v found
    rcases all _ ((findArg_eq_some once).mp found) with h | h
    · exact absurd rfl h
    · exact h
  · intro all a ha
    by_cases named : a.name = .beeperTime
    · right
      exact all a.value ((findArg_eq_some once).mpr (by rw [← named]; exact ha))
    · exact Or.inl named

/-- `sendWellFormed` in terms of the arguments found, for an operation that examines its arguments. -/
theorem sendWellFormed_iff {o : Operation} {args : List Arg} (h1 : o ≠ .cpuCardRequest) (h2 : o ≠ .cpuGeneralCommand) :
    sendWellFormed o args = true ↔
      onlyOnce ((sendArguments o).1 ++ (sendArguments o).2) args = true ∧
      (∀ n ∈ (sendArguments o).1, (findArg n args).isSome = true) ∧
      (∀ n ∈ (sendArguments o).1 ++ (sendArguments o).2, ∀ v, findArg n args = some v →
        Arg.wellFormed ⟨n, v⟩ = true) ∧
      (o = .beeperAndLed → (∀ v, findArg .beeperTime args = some v → v = .int 0) ∨
        ∀ n ∈ (sendArguments o).2, (findArg n args).isSome = true) := by
  have unfolded : sendWellFormed o args = true ↔
      (args.map Arg.name).Nodup ∧ (∀ a ∈ args, a.name ∈ (sendArguments o).1 ++ (sendArguments o).2) ∧
      (∀ n ∈ (sendArguments o).1, n ∈ args.map Arg.name) ∧ args.all Arg.wellFormed = true ∧
      (o = .beeperAndLed → beeperTimeUnsetOrZero args = true ∨ ∀ n ∈ (sendArguments o).2, n ∈ args.map Arg.name) := by
    unfold sendWellFormed
    split
    · exact absurd rfl h1
    · exact absurd rfl h2
    · rw [imp_iff_not_or (a := o = Operation.beeperAndLed)]
      simp only [Bool.and_eq_true, decide_eq_true_eq, List.all_eq_true, List.forall_mem_map, Bool.or_eq_true,
        bne_iff_ne, or_assoc, and_assoc, ne_eq]
  rw [unfolded]
  constructor
  · rintro ⟨once, named, required, typed, beeper⟩
    have only := onlyOnce_iff.mpr ⟨once, named⟩
    refine ⟨only, fun n hn => mem_names_iff.mp (required n hn), (all_wellFormed_iff only).mp typed, fun ho => ?_⟩
    exact (beeper ho).imp (beeperTimeUnsetOrZero_iff once).mp (fun all n hn => mem_names_iff.mp (all n hn))
  · rintro ⟨only, required, typed, beeper⟩
    obtain ⟨once, named⟩ := onlyOnce_iff.mp only
    refine ⟨once, named, fun n hn => mem_names_iff.mpr (required n hn), (all_wellFormed_iff only).mpr typed, fun ho => ?_⟩
    exact (beeper ho).imp (beeperTimeUnsetOrZero_iff once).mpr (fun all n hn => mem_names_iff.mpr (all n hn))

/-- `SEND` finds a command exactly for well-formed arguments (R54, R57). -/
theorem commandOf_isSome (o : Operation) (args : List Arg) : (commandOf o args).isSome = sendWellFormed o args := by
  by_cases cpu : o = .cpuCardRequest ∨ o = .cpuGeneralCommand
  · rcases cpu with rfl | rfl <;> rfl
  obtain ⟨h1, h2⟩ := not_or.mp cpu
  rw [Bool.eq_iff_iff, sendWellFormed_iff h1 h2]
  cases o
  case cpuCardRequest => exact absurd rfl h1
  case cpuGeneralCommand => exact absurd rfl h2
  case reboot => by_cases only : onlyOnce [] args = true <;> simp [commandOf, sendArguments, only]
  case handshake => by_cases only : onlyOnce [] args = true <;> simp [commandOf, sendArguments, only]
  case cardSelectCancel =>
    by_cases only : onlyOnce [.durationMs] args = true <;> simp [commandOf, sendArguments, only]
    rcases e : findArg .durationMs args with _ | (_ | _ | _) <;>
      simp [requiredInt, e, cardSelectCancelCommand, asU16_isSome, Arg.wellFormed]
  case cardPending =>
    by_cases only : onlyOnce [.durationMs] args = true <;> simp [commandOf, sendArguments, only]
    rcases e : findArg .durationMs args with _ | (_ | _ | _) <;>
      simp [requiredInt, e, cardPendingCommand, asU16_isSome, Arg.wellFormed]
  case m1CardTestRequest =>
    by_cases only : onlyOnce [.type] args = true <;> simp [commandOf, sendArguments, only]
    rcases e : findArg .type args with _ | (_ | _ | _) <;>
      simp [requiredInt, e, m1CardTestRequestCommand, asU8_isSome, Arg.wellFormed]
  case m1DownloadPasswordList =>
    by_cases only : onlyOnce [.groups] args = true <;> simp [commandOf, sendArguments, only]
    rcases e : findArg .groups args with _ | (_ | _ | _) <;>
      simp [optionalGroups, e, m1DownloadPasswordListCommand, asGroups_isSome, Arg.wellFormed,
        groupsWellFormed]
  case m1ReadContentByKey =>
    by_cases only : onlyOnce [.block, .passwordType] args = true <;> simp [commandOf, sendArguments, only]
    rcases e1 : findArg .block args with _ | (b | _ | _) <;> simp [requiredInt, e1, Arg.wellFormed]
    rcases e2 : findArg .passwordType args with _ | (p | _ | _) <;> simp [m1ReadContentByKeyCommand]
    rw [← asNat_isSome, ← asPwType_isSome]
    cases asNat b <;> cases asPwType p <;> simp
  case m1WriteContentByKey =>
    by_cases only : onlyOnce [.block, .passwordType, .content] args = true <;> simp [commandOf, sendArguments, only]
    rcases e1 : findArg .block args with _ | (b | _ | _) <;> simp [requiredInt, e1, Arg.wellFormed]
    rcases e2 : findArg .passwordType args with _ | (p | _ | _) <;> simp
    rcases e3 : findArg .content args with _ | (_ | _ | _) <;> simp [requiredBytes, e3, m1WriteContentByKeyCommand]
    rw [← asNat_isSome, ← asPwType_isSome]
    cases asNat b <;> cases asPwType p <;> simp
  case m1ReadContentByCommand =>
    by_cases only : onlyOnce [.block, .passwordType, .password] args = true <;> simp [commandOf, sendArguments, only]
    rcases e1 : findArg .block args with _ | (b | _ | _) <;> simp [requiredInt, e1, Arg.wellFormed]
    rcases e2 : findArg .passwordType args with _ | (p | _ | _) <;> simp
    rcases e3 : findArg .password args with _ | (_ | _ | _) <;> simp [requiredBytes, e3, m1ReadContentByCommandCommand]
    rw [← asNat_isSome, ← asPwType_isSome]
    cases asNat b <;> cases asPwType p <;> simp
  case m1WriteContentByCommand =>
    by_cases only : onlyOnce [.block, .passwordType, .password, .content] args = true <;>
      simp [commandOf, sendArguments, only]
    rcases e1 : findArg .block args with _ | (b | _ | _) <;> simp [requiredInt, e1, Arg.wellFormed]
    rcases e2 : findArg .passwordType args with _ | (p | _ | _) <;> simp
    rcases e3 : findArg .password args with _ | (_ | _ | _) <;> simp [requiredBytes, e3]
    rcases e4 : findArg .content args with _ | (_ | _ | _) <;> simp [m1WriteContentByCommandCommand]
    rw [← asNat_isSome, ← asPwType_isSome]
    cases asNat b <;> cases asPwType p <;> simp
  case beeperAndLed =>
    by_cases only : onlyOnce [.beeperTime, .beeperCycle, .ledTime, .ledFlashCycle] args = true <;>
      simp [commandOf, sendArguments, only]
    rcases e1 : findArg .beeperTime args with _ | (bt | _ | _) <;> simp [optionalInt, e1, Arg.wellFormed] <;>
    rcases e2 : findArg .beeperCycle args with _ | (bc | _ | _) <;> simp <;>
    rcases e3 : findArg .ledTime args with _ | (lt | _ | _) <;> simp <;>
    rcases e4 : findArg .ledFlashCycle args with _ | (lf | _ | _) <;>
      simp [beeperAndLedCommand_isSome, beeperWellFormed, unsetOr, and_assoc]

/-! ### What a command does -/

/-- At most 255 groups: what the interface lets through (R57). -/
def fewGroups : Command → Prop
  | .m1DownloadPasswordList (some gs) => gs.length ≤ 255
  | _ => True

/-- No payload of the catalog exceeds the length field (R41): the longest is `1 + 8 * 255`. -/
theorem buildPayload_length {c : Command} {p : Bytes} (few : fewGroups c) (h : buildPayload c = .ok p) :
    p.length ≤ 65535 := by
  have groups (gs : List PasswordGroup) : (gs.flatMap groupBytes).length = 8 * gs.length := by
    induction gs with
    | nil => rfl
    | cons g gs ih =>
      have := g.password.property
      rw [List.flatMap_cons, List.length_append, ih]
      simp only [groupBytes, List.length_append, List.length_cons, List.length_nil]
      omega
  cases c with
  | m1DownloadPasswordList gs =>
    rcases gs with _ | (_ | ⟨g, gs⟩)
    · cases h
    · cases h
    · obtain rfl := Except.ok.inj h
      have count : (g :: gs).length ≤ 255 := few
      have bytes := groups (g :: gs)
      rw [List.length_cons, bytes]
      omega
  | m1ReadContentByKey block pt =>
    simp only [buildPayload, checkBlock] at h
    split at h
    · cases h
    · obtain rfl := Except.ok.inj h
      simp [blockAndType]
  | m1WriteContentByKey block pt content =>
    simp only [buildPayload, checkBlock, checkContent] at h
    split at h
    · cases h
    split at h
    · cases h
    next sixteen =>
      obtain rfl := Except.ok.inj h
      simp [blockAndType] at sixteen ⊢
      omega
  | m1ReadContentByCommand block pt password =>
    simp only [buildPayload, checkBlock, checkPassword] at h
    split at h
    · cases h
    split at h
    · cases h
    next six =>
      obtain rfl := Except.ok.inj h
      simp [blockAndType] at six ⊢
      omega
  | m1WriteContentByCommand block pt password content =>
    simp only [buildPayload, checkBlock, checkPassword, checkContent] at h
    split at h
    · cases h
    split at h
    · cases h
    split at h
    · cases h
    next six sixteen =>
      obtain rfl := Except.ok.inj h
      simp [blockAndType] at six sixteen ⊢
      omega
  | beeperAndLed bt bc lt lf =>
    obtain rfl := Except.ok.inj h
    simp [bigEndian, littleEndian]
  | cardSelectCancel d =>
    obtain rfl := Except.ok.inj h
    simp [bigEndian]
  | cardPending d =>
    obtain rfl := Except.ok.inj h
    simp [bigEndian]
  | m1CardTestRequest t =>
    obtain rfl := Except.ok.inj h
    simp
  | reboot =>
    obtain rfl := Except.ok.inj h
    simp
  | handshake =>
    obtain rfl := Except.ok.inj h
    simp
  | cpuCardRequest => cases h
  | cpuGeneralCommand => cases h

/-- What a builder raises is one of its operation's validation reasons, or, for a CPU operation only, NOT_IMPLEMENTED (R96,
R97). -/
theorem buildPayload_error {c : Command} {st : Status} (h : buildPayload c = .error st) :
    (∃ r ∈ reasonsOf (commandOperation c), st = .validation r) ∨
    (st = .notImplemented ∧ (commandOperation c = .cpuCardRequest ∨ commandOperation c = .cpuGeneralCommand)) := by
  have raised (r : Reason) (mem : r ∈ reasonsOf (commandOperation c))
      (e : (Except.error (.validation r) : Except Status Bytes) = .error st) :
      (∃ r ∈ reasonsOf (commandOperation c), st = .validation r) ∨ (st = .notImplemented ∧
        (commandOperation c = .cpuCardRequest ∨ commandOperation c = .cpuGeneralCommand)) :=
    Or.inl ⟨r, mem, (Except.error.inj e).symm⟩
  cases c with
  | m1DownloadPasswordList gs =>
    rcases gs with _ | (_ | ⟨g, gs⟩)
    · exact raised _ (by simp [commandOperation, reasonsOf]) h
    · exact raised _ (by simp [commandOperation, reasonsOf]) h
    · cases h
  | m1ReadContentByKey block pt =>
    simp only [buildPayload, checkBlock] at h
    split at h
    · exact raised _ (by simp [commandOperation, reasonsOf]) h
    · cases h
  | m1WriteContentByKey block pt content =>
    simp only [buildPayload, checkBlock, checkContent] at h
    repeat' split at h
    · exact raised _ (by simp [commandOperation, reasonsOf]) h
    · exact raised _ (by simp [commandOperation, reasonsOf]) h
    · cases h
  | m1ReadContentByCommand block pt password =>
    simp only [buildPayload, checkBlock, checkPassword] at h
    repeat' split at h
    · exact raised _ (by simp [commandOperation, reasonsOf]) h
    · exact raised _ (by simp [commandOperation, reasonsOf]) h
    · cases h
  | m1WriteContentByCommand block pt password content =>
    simp only [buildPayload, checkBlock, checkPassword, checkContent] at h
    repeat' split at h
    · exact raised _ (by simp [commandOperation, reasonsOf]) h
    · exact raised _ (by simp [commandOperation, reasonsOf]) h
    · exact raised _ (by simp [commandOperation, reasonsOf]) h
    · cases h
  | cpuCardRequest => exact Or.inr ⟨(Except.error.inj h).symm, Or.inl rfl⟩
  | cpuGeneralCommand => exact Or.inr ⟨(Except.error.inj h).symm, Or.inr rfl⟩
  | beeperAndLed bt bc lt lf => cases h
  | cardSelectCancel d => cases h
  | cardPending d => cases h
  | m1CardTestRequest t => cases h
  | reboot => cases h
  | handshake => cases h

theorem sendCommand_closed (c : Command) {s : State} (h : s.session = .closed) :
    sendCommand c s = .next (finish (.raised .closed) s) := by
  simp [sendCommand, h, raise, answer]

theorem sendCommand_error {c : Command} {s : State} {st : Status} (h : s.session = .opened)
    (e : buildPayload c = .error st) : sendCommand c s = .next (finish (.raised st) s) := by
  simp [sendCommand, h, e, raise, answer]

theorem sendCommand_ok {c : Command} {s : State} {p : Bytes} (h : s.session = .opened) (few : fewGroups c)
    (e : buildPayload c = .ok p) :
    sendCommand c s
      = .next (transmit (txFrame (opcode (commandOperation c)) p (s.seq + 1)) (s.seq + 1) s) := by
  simp [sendCommand, h, e, packFrame_of_le (buildPayload_length few e)]

/-- Everything a command can do (R54): it is rejected in a closed session, it raises what its builder raises, or it hands
its frame over. -/
theorem sendCommand_cases (c : Command) (few : fewGroups c) (s : State) :
    (s.session = .closed ∧ sendCommand c s = .next (finish (.raised .closed) s)) ∨
    (s.session = .opened ∧ ∃ st, buildPayload c = .error st ∧ sendCommand c s = .next (finish (.raised st) s)) ∨
    (s.session = .opened ∧ ∃ p, buildPayload c = .ok p ∧ p.length ≤ 65535 ∧
      sendCommand c s
        = .next (transmit (txFrame (opcode (commandOperation c)) p (s.seq + 1)) (s.seq + 1) s)) := by
  rcases session : s.session with _ | _
  · rcases e : buildPayload c with st | p
    · exact Or.inr (Or.inl ⟨rfl, st, rfl, sendCommand_error session e⟩)
    · exact Or.inr (Or.inr ⟨rfl, p, rfl, buildPayload_length few e, sendCommand_ok session few e⟩)
  · exact Or.inl ⟨rfl, sendCommand_closed c session⟩

/-- `SEND` reads neither the decode buffer nor anything else of the receive path, nor the last result (R30, R20). -/
theorem sendCommand_receivePath (c : Command) (few : fewGroups c) (s : State) (b : Bytes) (es : List Event)
    (r : Option Result) :
    sendCommand c { s with rxbuf := b, rxout := es, result := r }
      = mapNext (fun t => { t with rxbuf := b, rxout := es }) (sendCommand c s) := by
  obtain ⟨q, session, buf, cap, pending, result, txout, rxout⟩ := s
  cases session with
  | closed => rfl
  | opened =>
    rcases e : buildPayload c with st | p
    · rw [sendCommand_error rfl e, sendCommand_error rfl e]
      rfl
    · rw [sendCommand_ok rfl few e, sendCommand_ok rfl few e]
      rfl

/-- `SEND` does not read the decode buffer (R30). -/
theorem sendCommand_rxbuf (c : Command) (few : fewGroups c) (s : State) (b : Bytes) :
    sendCommand c { s with rxbuf := b } = mapNext (fun t => { t with rxbuf := b }) (sendCommand c s) := by
  have all := sendCommand_receivePath c few s b s.rxout s.result
  rcases sendCommand_cases c few s with ⟨-, e⟩ | ⟨-, st, -, e⟩ | ⟨-, p, -, -, e⟩ <;> rw [e] at all ⊢ <;> exact all

/-! ### Which command the operands give -/

theorem beeperAndLedCommand_some {bt bc lt lf : Option Int} {c : Command}
    (h : beeperAndLedCommand bt bc lt lf = some c) : commandOperation c = .beeperAndLed ∧ fewGroups c := by
  unfold beeperAndLedCommand at h
  simp only [Option.bind_eq_bind, Option.bind_eq_some_iff] at h
  obtain ⟨bt', -, bc', -, lt', -, lf', -, h⟩ := h
  split at h
  · obtain rfl := Option.some.inj h
    exact ⟨rfl, trivial⟩
  split at h
  · obtain rfl := Option.some.inj h
    exact ⟨rfl, trivial⟩
  split at h
  · obtain rfl := Option.some.inj h
    exact ⟨rfl, trivial⟩
  · cases h

theorem map_some {α : Type} {f : α → Command} {x : Option α} {c : Command} {o : Operation} (h : x.map f = some c)
    (all : ∀ a, x = some a → commandOperation (f a) = o ∧ fewGroups (f a)) : commandOperation c = o ∧ fewGroups c := by
  cases x with
  | none => cases h
  | some a =>
    obtain rfl := Option.some.inj h
    exact all a rfl

theorem bind2_some {α β : Type} {f : α → β → Command} {x : Option α} {y : Option β} {c : Command} {o : Operation}
    (h : (x.bind fun a => y.bind fun b => some (f a b)) = some c)
    (all : ∀ a b, commandOperation (f a b) = o ∧ fewGroups (f a b)) : commandOperation c = o ∧ fewGroups c := by
  cases x with
  | none => cases h
  | some a =>
    cases y with
    | none => cases h
    | some b =>
      obtain rfl := Option.some.inj h
      exact all a b

theorem m1DownloadPasswordListCommand_some {gs : Option (List GroupArg)} {c : Command}
    (h : m1DownloadPasswordListCommand gs = some c) : commandOperation c = .m1DownloadPasswordList ∧ fewGroups c := by
  refine map_some h (fun a ha => ⟨rfl, ?_⟩)
  cases a with
  | none => trivial
  | some pgs => exact asGroups_length ha

/-- The command `SEND` finds is of the selected operation, with few groups. -/
theorem commandOf_some {o : Operation} {args : List Arg} {c : Command} (h : commandOf o args = some c) :
    commandOperation c = o ∧ fewGroups c := by
  cases o <;> simp only [commandOf] at h
  case cpuCardRequest =>
    obtain rfl := Option.some.inj h
    exact ⟨rfl, trivial⟩
  case cpuGeneralCommand =>
    obtain rfl := Option.some.inj h
    exact ⟨rfl, trivial⟩
  all_goals
    split at h
    case isFalse => cases h
  case reboot =>
    obtain rfl := Option.some.inj h
    exact ⟨rfl, trivial⟩
  case handshake =>
    obtain rfl := Option.some.inj h
    exact ⟨rfl, trivial⟩
  case beeperAndLed =>
    simp only [Option.bind_eq_bind, Option.bind_eq_some_iff] at h
    obtain ⟨bt, -, bc, -, lt, -, lf, -, h⟩ := h
    exact beeperAndLedCommand_some h
  case cardSelectCancel =>
    obtain ⟨d, -, h⟩ := Option.bind_eq_some_iff.mp h
    exact map_some h (fun _ _ => ⟨rfl, trivial⟩)
  case cardPending =>
    obtain ⟨d, -, h⟩ := Option.bind_eq_some_iff.mp h
    exact map_some h (fun _ _ => ⟨rfl, trivial⟩)
  case m1CardTestRequest =>
    obtain ⟨d, -, h⟩ := Option.bind_eq_some_iff.mp h
    exact map_some h (fun _ _ => ⟨rfl, trivial⟩)
  case m1DownloadPasswordList =>
    obtain ⟨d, -, h⟩ := Option.bind_eq_some_iff.mp h
    exact m1DownloadPasswordListCommand_some h
  case m1ReadContentByKey =>
    simp only [Option.bind_eq_bind, Option.bind_eq_some_iff] at h
    obtain ⟨block, -, pt, -, h⟩ := h
    exact bind2_some h (fun _ _ => ⟨rfl, trivial⟩)
  case m1WriteContentByKey =>
    simp only [Option.bind_eq_bind, Option.bind_eq_some_iff] at h
    obtain ⟨block, -, pt, -, content, -, h⟩ := h
    exact bind2_some h (fun _ _ => ⟨rfl, trivial⟩)
  case m1ReadContentByCommand =>
    simp only [Option.bind_eq_bind, Option.bind_eq_some_iff] at h
    obtain ⟨block, -, pt, -, password, -, h⟩ := h
    exact bind2_some h (fun _ _ => ⟨rfl, trivial⟩)
  case m1WriteContentByCommand =>
    simp only [Option.bind_eq_bind, Option.bind_eq_some_iff] at h
    obtain ⟨block, -, pt, -, password, -, content, -, h⟩ := h
    exact bind2_some h (fun _ _ => ⟨rfl, trivial⟩)

end Sys2Proof.Machine
end

