-- ==== Sys2Proof/Laws/Exec.lean ====
section
/-! SUPPORT. What a transaction can do, said once: each kind's form, and one inversion of `exec` for the statements about
every transaction. -/

namespace Sys2Proof.Machine

open Safety

theorem sendTyped_isSome {x : Option Command} {w : Bool} (h : x.isSome = w) {o : Operation}
    (all : ∀ c, x = some c → commandOperation c = o ∧ fewGroups c) :
    (w = false ∧ ∀ s, sendTyped x s = .refused .argType) ∨
    (w = true ∧ ∃ c, commandOperation c = o ∧ fewGroups c ∧ ∀ s, sendTyped x s = sendCommand c s) := by
  subst h
  cases x with
  | none => exact Or.inl ⟨rfl, fun _ => rfl⟩
  | some c => exact Or.inr ⟨rfl, c, (all c rfl).1, (all c rfl).2, fun _ => rfl⟩

theorem twoOperands_isSome {f : Nat → PwType → Command} (block pt : Int) :
    ((asNat block).bind fun b => (asPwType pt).bind fun p => some (f b p)).isSome = (isNat block && isPwType pt) := by
  rw [← asNat_isSome, ← asPwType_isSome]
  cases asNat block <;> cases asPwType pt <;> rfl

/-- Every `SEND` transaction (R54): it is refused exactly when ill-formed, and otherwise it is one command of its
operation. -/
theorem exec_send {i : Instr} (h : isSend i = true) :
    (i.wellFormed = false ∧ ∀ s, exec i s = .refused (refusalOf i)) ∨
    (i.wellFormed = true ∧ ∃ c, sendOperation i = some (commandOperation c) ∧ fewGroups c ∧
      ∀ s, exec i s = sendCommand c s) := by
  have finishOne {w : Bool} {x : Option Command} {o : Operation}
      (split : (w = false ∧ ∀ s, sendTyped x s = .refused .argType) ∨
        (w = true ∧ ∃ c, commandOperation c = o ∧ fewGroups c ∧ ∀ s, sendTyped x s = sendCommand c s)) :
      (w = false ∧ ∀ s, sendTyped x s = .refused .argType) ∨
        (w = true ∧ ∃ c, some o = some (commandOperation c) ∧ fewGroups c ∧ ∀ s, sendTyped x s = sendCommand c s) := by
    rcases split with l | ⟨w, c, op, few, eq⟩
    · exact Or.inl l
    · exact Or.inr ⟨w, c, by rw [op], few, eq⟩
  cases i with
  | sendReboot => exact Or.inr ⟨rfl, .reboot, rfl, trivial, fun _ => rfl⟩
  | sendHandshake => exact Or.inr ⟨rfl, .handshake, rfl, trivial, fun _ => rfl⟩
  | sendCpuCardRequest args => exact Or.inr ⟨rfl, .cpuCardRequest, rfl, trivial, fun _ => rfl⟩
  | sendCpuGeneralCommand args => exact Or.inr ⟨rfl, .cpuGeneralCommand, rfl, trivial, fun _ => rfl⟩
  | sendBeeperAndLed bt bc lt lf =>
    exact finishOne (sendTyped_isSome (beeperAndLedCommand_isSome bt bc lt lf) (fun _ => beeperAndLedCommand_some))
  | sendCardSelectCancel d =>
    exact finishOne (sendTyped_isSome (by rw [cardSelectCancelCommand, Option.isSome_map, asU16_isSome]; rfl)
      (fun _ h => map_some h (fun _ _ => ⟨rfl, trivial⟩)))
  | sendCardPending d =>
    exact finishOne (sendTyped_isSome (by rw [cardPendingCommand, Option.isSome_map, asU16_isSome]; rfl)
      (fun _ h => map_some h (fun _ _ => ⟨rfl, trivial⟩)))
  | sendM1CardTestRequest t =>
    exact finishOne (sendTyped_isSome (by rw [m1CardTestRequestCommand, Option.isSome_map, asU8_isSome]; rfl)
      (fun _ h => map_some h (fun _ _ => ⟨rfl, trivial⟩)))
  | sendM1DownloadPasswordList gs =>
    exact finishOne (sendTyped_isSome (by rw [m1DownloadPasswordListCommand, Option.isSome_map, asGroups_isSome]; rfl)
      (fun _ => m1DownloadPasswordListCommand_some))
  | sendM1ReadContentByKey block pt =>
    exact finishOne (sendTyped_isSome (twoOperands_isSome block pt) (fun _ h => bind2_some h (fun _ _ => ⟨rfl, trivial⟩)))
  | sendM1WriteContentByKey block pt content =>
    exact finishOne (sendTyped_isSome (twoOperands_isSome block pt) (fun _ h => bind2_some h (fun _ _ => ⟨rfl, trivial⟩)))
  | sendM1ReadContentByCommand block pt password =>
    exact finishOne (sendTyped_isSome (twoOperands_isSome block pt) (fun _ h => bind2_some h (fun _ _ => ⟨rfl, trivial⟩)))
  | sendM1WriteContentByCommand block pt password content =>
    exact finishOne (sendTyped_isSome (twoOperands_isSome block pt) (fun _ h => bind2_some h (fun _ _ => ⟨rfl, trivial⟩)))
  | send selector args =>
    rcases found : operationOf selector with _ | o
    · exact Or.inl ⟨by simp [Instr.wellFormed, found], fun s => by simp [exec, execSend, refusalOf, found, refuse]⟩
    · have typed := finishOne (sendTyped_isSome (commandOf_isSome o args) (fun _ => commandOf_some))
      rcases typed with ⟨w, eq⟩ | ⟨w, c, op, few, eq⟩
      · exact Or.inl ⟨by simpa [Instr.wellFormed, found] using w,
          fun s => by simpa [exec, execSend, refusalOf, found] using eq s⟩
      · exact Or.inr ⟨by simpa [Instr.wellFormed, found] using w, c, by simpa [sendOperation, found] using op, few,
          fun s => by simpa [exec, execSend, found] using eq s⟩
  | rxFrame op payload seq cs t => cases h
  | rxResyncMark => cases h
  | pack op payload seq => cases h
  | sum bytes start stop => cases h
  | feed chunk => cases h
  | close => cases h
  | reset => cases h

/-- Every arrival (R71): a chunk reaches the decoder, but for an `RX.FRAME` that is no frame. -/
theorem exec_arrival {i : Instr} {c : Bytes} (h : arrival i = some c) :
    (i.wellFormed = false ∧ ∀ s, exec i s = .refused (refusalOf i)) ∨
    (i.wellFormed = true ∧ ∀ s, exec i s = feedChunk c s) := by
  cases i with
  | feed chunk =>
    obtain rfl := Option.some.inj h
    exact Or.inr ⟨rfl, fun _ => rfl⟩
  | rxResyncMark =>
    obtain rfl := Option.some.inj h
    exact Or.inr ⟨rfl, fun _ => rfl⟩
  | rxFrame op p q cs t =>
    obtain rfl := Option.some.inj h
    by_cases fits : p.length ≤ maxPayload
    · exact Or.inr ⟨by simp [Instr.wellFormed, fits], fun s => by
        simp only [exec, execRxFrame, if_pos fits]
        rw [rxFrameBytes_of_le fits]⟩
    · exact Or.inl ⟨by simpa [Instr.wellFormed] using fits, fun s => by
        simp only [exec, execRxFrame, if_neg fits]
        rfl⟩
  | _ => cases h

/-- Everything `exec` can do: it is refused; a `SEND` raises or hands its frame over; `PACK` and `SUM` give a result; a chunk
is rejected or runs a pass; a session ends or starts. -/
theorem exec_cases (i : Instr) (s : State) :
    (∃ r, exec i s = .refused r) ∨
    (isSend i = true ∧ s.session = .closed ∧ exec i s = .next (finish (.raised .closed) s)) ∨
    (isSend i = true ∧ s.session = .opened ∧ ∃ st, ((∃ o, sendOperation i = some o ∧ ∃ r ∈ reasonsOf o, st = .validation r) ∨ (st = .notImplemented ∧
        (sendOperation i = some .cpuCardRequest ∨ sendOperation i = some .cpuGeneralCommand))) ∧
      exec i s = .next (finish (.raised st) s)) ∨
    (isSend i = true ∧ s.session = .opened ∧ ∃ o p, sendOperation i = some o ∧ p.length ≤ 65535 ∧
      exec i s = .next (transmit (txFrame (opcode o) p (s.seq + 1)) (s.seq + 1) s)) ∨
    ((∃ op p q, i = .pack op p q ∧ p.length ≤ 65535 ∧ exec i s = .next (finish (.okFrame (txFrame op p q)) s))) ∨
    ((∃ b m n, i = .sum b m n ∧ m ≤ n ∧ n ≤ b.length ∧ exec i s = .next (finish (.okValue (sumRange b m n)) s))) ∨
    ((∃ c, arrival i = some c ∧ s.session = .closed ∧ exec i s = .next (finish (.raised .closed) s))) ∨
    ((∃ c k es, arrival i = some c ∧ Admits s c.length ∧ decodePass (s.rxbuf ++ c) = .ok ((s.rxbuf ++ c).drop k, es) ∧
      Waiting ((s.rxbuf ++ c).drop k) ∧ exec i s = .next (receive ((s.rxbuf ++ c).drop k) es s))) ∨
    (i = .close ∧ exec i s = .next (endSession s)) ∨
    (i = .reset ∧ exec i s = .next (startSession s)) := by
  by_cases send : isSend i = true
  · rcases exec_send send with ⟨-, eq⟩ | ⟨-, c, op, few, eq⟩
    · exact Or.inl ⟨_, eq s⟩
    · rcases sendCommand_cases c few s with ⟨closed, e⟩ | ⟨opened, st, error, e⟩ | ⟨opened, p, -, fits, e⟩
      · exact Or.inr (Or.inl ⟨send, closed, by rw [eq, e]⟩)
      · refine Or.inr (Or.inr (Or.inl ⟨send, opened, st, ?_, by rw [eq, e]⟩))
        rw [op]
        simpa using buildPayload_error error
      · exact Or.inr (Or.inr (Or.inr (Or.inl ⟨send, opened, _, p, op, fits, by rw [eq, e]⟩)))
  rcases chunk : arrival i with _ | c
  · cases i with
    | pack op p q =>
      by_cases fits : p.length ≤ 65535
      · refine Or.inr (Or.inr (Or.inr (Or.inr (Or.inl ⟨op, p, q, rfl, fits, ?_⟩))))
        simp [exec, execPack, packFrame_of_le fits, answer]
      · refine Or.inl ⟨.payloadTooLong, ?_⟩
        simp [exec, execPack, packFrame_of_gt (show 65535 < p.length by omega), refuse]
    | sum b m n =>
      by_cases inside : m ≤ n ∧ n ≤ b.length
      · refine Or.inr (Or.inr (Or.inr (Or.inr (Or.inr (Or.inl ⟨b, m, n, rfl, inside.1, inside.2, ?_⟩)))))
        simp [exec, execSum, inside, answer]
      · refine Or.inl ⟨.sumRange, ?_⟩
        simp only [exec, execSum, if_neg inside]
        rfl
    | close => exact Or.inr (Or.inr (Or.inr (Or.inr (Or.inr (Or.inr (Or.inr (Or.inr (Or.inl ⟨rfl, rfl⟩))))))))
    | reset => exact Or.inr (Or.inr (Or.inr (Or.inr (Or.inr (Or.inr (Or.inr (Or.inr (Or.inr ⟨rfl, rfl⟩))))))))
    | feed chunk' => cases chunk
    | rxFrame op p q cs t => cases chunk
    | rxResyncMark => cases chunk
    | _ => exact absurd rfl send
  · rcases exec_arrival chunk with ⟨-, eq⟩ | ⟨-, eq⟩
    · exact Or.inl ⟨_, eq s⟩
    · rcases feedChunk_cases c s with ⟨closed, e⟩ | ⟨-, -, e⟩ | ⟨admits, k, es, pass, waits, e⟩
      · exact Or.inr (Or.inr (Or.inr (Or.inr (Or.inr (Or.inr (Or.inl ⟨c, rfl, closed, by rw [eq, e]⟩))))))
      · exact Or.inl ⟨_, by rw [eq, e]⟩
      · exact Or.inr (Or.inr (Or.inr (Or.inr (Or.inr (Or.inr (Or.inr (Or.inl
          ⟨c, k, es, rfl, admits, pass, waits, by rw [eq, e]⟩)))))))

end Sys2Proof.Machine
end

