-- ==== Sys2Proof/Laws/Frames.lean ====
section
/-! SUPPORT. What the decode pass does with a frame, a mark, and with more bytes behind those it has seen: the lemmas that
the statements about streams rest on. -/

namespace Sys2Proof.Machine

open Safety

/-! ### More bytes behind do not change what has been decided -/

theorem HasHeader_append {b : Bytes} (c : Bytes) (h : 5 ≤ b.length) : HasHeader (b ++ c) ↔ HasHeader b := by
  rw [HasHeader, HasHeader, List.take_append_of_le_length h]

theorem MarkAt_append {b : Bytes} (c : Bytes) {k : Nat} (h : k + 6 ≤ b.length) : MarkAt (b ++ c) k ↔ MarkAt b k := by
  rw [MarkAt, MarkAt, List.drop_append_of_le_length (by omega),
    List.take_append_of_le_length (by rw [List.length_drop]; omega)]

theorem getD_append {b : Bytes} (c : Bytes) {k : Nat} (h : k < b.length) : (b ++ c).getD k 0 = b.getD k 0 := by
  simp [List.getD, List.getElem?_append_left h]

theorem claimedLength_append {b : Bytes} (c : Bytes) (h : 11 ≤ b.length) : claimedLength (b ++ c) = claimedLength b := by
  rw [claimedLength, claimedLength, getD_append c (by omega), getD_append c (by omega)]

theorem frameEvent_append {b : Bytes} (c : Bytes) (long : 11 ≤ b.length) (h : 11 + claimedLength b ≤ b.length) :
    frameEvent (b ++ c) = frameEvent b := by
  simp only [frameEvent, claimedLength_append c long, List.take_append_of_le_length h]

/-- A dropping iteration is the same with more bytes behind. -/
theorem nextMove_append {b : Bytes} (c : Bytes) {n : Nat} {e : Option Event} (h : nextMove b = some (.drop n e)) :
    nextMove (b ++ c) = some (.drop n e) := by
  rw [← h]
  rcases nextMove_cases b with ⟨-, m⟩ | ⟨-, m⟩ | ⟨-, m⟩ | ⟨long, header, complete, terminated, m⟩ |
    ⟨long, header, complete, bad, m⟩ | ⟨long, header, k, here, lowest, m⟩ <;> rw [m]
  · rw [m] at h; cases h
  · rw [m] at h; cases h
  · rw [m] at h; cases h
  all_goals have longer : 11 ≤ (b ++ c).length := by rw [List.length_append]; omega
  · rw [nextMove_header longer ((HasHeader_append c (by omega)).mpr header),
      headerMove_frame (by rw [claimedLength_append c long, List.length_append]; omega)
        (by rw [claimedLength_append c long, getD_append c (by omega)]; exact terminated),
      claimedLength_append c long, frameEvent_append c long complete]
  · rw [nextMove_header longer ((HasHeader_append c (by omega)).mpr header),
      headerMove_badTerminator (by rw [claimedLength_append c long, List.length_append]; omega)
        (by rw [claimedLength_append c long, getD_append c (by omega)]; exact bad),
      claimedLength_append c long]
  · have inside := MarkAt_length here
    rw [nextMove_noHeader longer (fun x => header ((HasHeader_append c (by omega)).mp x)), resyncMove,
      findMark_eq_some.mpr ⟨(MarkAt_append c inside).mpr here,
        fun j less x => lowest j less ((MarkAt_append c (by omega)).mp x)⟩]

/-- The pass over `b ++ c` is the pass over `b`, then that over what it left and `c` (the ground of R83). -/
theorem decodePass_append {b rest left : Bytes} {es es' : List Event} (c : Bytes) (first : decodePass b = .ok (rest, es))
    (second : decodePass (rest ++ c) = .ok (left, es')) : decodePass (b ++ c) = .ok (left, es ++ es') := by
  induction length : b.length using Nat.strong_induction_on generalizing b es with
  | _ m ih =>
    rcases e : nextMove b with _ | (w | ⟨n, ev⟩)
    · simp [decodePass, decodeLoop, e] at first
    · rw [decodePass_wait e] at first
      cases first
      simpa using second
    · obtain ⟨pos, le⟩ := nextMove_drop e
      obtain ⟨k, es₁, pass, -⟩ := decodePass_ends (b.drop n)
      rw [decodePass_drop e, pass] at first
      cases first
      have tail := ih (b.drop n).length (by simp; omega) pass rfl
      rw [decodePass_drop (nextMove_append c e), List.drop_append_of_le_length le, tail]
      simp

/-! ### A frame at the front -/

theorem HasHeader_rxBytes (op : Byte) (p : Bytes) (q cs t : Byte) (rest : Bytes) :
    HasHeader (rxBytes op p q cs t ++ rest) := by
  simp [HasHeader, rxBytes]

theorem claimedLength_rxBytes {op : Byte} {p : Bytes} {q cs t : Byte} {rest : Bytes} (h : p.length ≤ 65535) :
    claimedLength (rxBytes op p q cs t ++ rest) = p.length := by
  simpa [claimedLength, rxBytes] using high_low h

theorem terminator_rxBytes (op : Byte) (p : Bytes) (q cs t : Byte) (rest : Bytes) :
    (rxBytes op p q cs t ++ rest).getD (10 + p.length) 0 = t := by
  rw [show 10 + p.length = p.length + 10 by omega]
  simp [rxBytes]

theorem frameEvent_rxBytes {op : Byte} {p : Bytes} {q cs t : Byte} {rest : Bytes} (h : p.length ≤ 65535) :
    frameEvent (rxBytes op p q cs t ++ rest) = if cs = rxChecksum op p q then .emit p else .framing .badChecksum := by
  have frame : (rxBytes op p q cs t ++ rest).take (11 + p.length) = rxBytes op p q cs t := by
    rw [← rxBytes_length op p q cs t, List.take_left]
  have check : (rxBytes op p q cs t).getD (9 + p.length) 0 = cs := by
    rw [show 9 + p.length = p.length + 9 by omega]
    simp [rxBytes]
  have total : sumRange (rxBytes op p q cs t) 3 (9 + p.length) = rxChecksum op p q := by
    rw [sumRange_eq, rxChecksum, show 9 + p.length - 3 = p.length + 1 + 5 by omega]
    congr 1
    simp [rxBytes, List.take_length_add_append]
  have payload : ((rxBytes op p q cs t).drop 8).take p.length = p := by simp [rxBytes]
  simp only [frameEvent, claimedLength_rxBytes h, frame, check, total, payload, eq_comm]

/-- R75 to R78: a complete frame with its terminator in place goes, and gives one event. -/
theorem decodePass_frame {op : Byte} {p : Bytes} {q cs : Byte} {rest left : Bytes} {es : List Event}
    (h : p.length ≤ 65535) (behind : decodePass rest = .ok (left, es)) :
    decodePass (rxBytes op p q cs 0x16 ++ rest)
      = .ok (left, (if cs = rxChecksum op p q then .emit p else .framing .badChecksum) :: es) := by
  have move : nextMove (rxBytes op p q cs 0x16 ++ rest)
      = some (.drop (11 + p.length) (some (if cs = rxChecksum op p q then .emit p else .framing .badChecksum))) := by
    rw [nextMove_header (by simp; omega) (HasHeader_rxBytes ..),
      headerMove_frame (by rw [claimedLength_rxBytes h]; simp)
        (by rw [claimedLength_rxBytes h]; exact terminator_rxBytes ..),
      claimedLength_rxBytes h, frameEvent_rxBytes h]
  have left : (rxBytes op p q cs 0x16 ++ rest).drop (11 + p.length) = rest := by
    rw [← rxBytes_length op p q cs 0x16, List.drop_left]
  rw [decodePass_drop move, left, behind]
  rfl

/-- R79: a complete frame with a wrong terminator byte goes but for that byte, and gives one event. -/
theorem decodePass_badTerminator {op : Byte} {p : Bytes} {q cs t : Byte} {rest left : Bytes} {es : List Event}
    (h : p.length ≤ 65535) (bad : t ≠ 0x16) (behind : decodePass (t :: rest) = .ok (left, es)) :
    decodePass (rxBytes op p q cs t ++ rest) = .ok (left, .framing .badTerminator :: es) := by
  have move : nextMove (rxBytes op p q cs t ++ rest)
      = some (.drop (10 + p.length) (some (.framing .badTerminator))) := by
    rw [nextMove_header (by simp; omega) (HasHeader_rxBytes ..),
      headerMove_badTerminator (by rw [claimedLength_rxBytes h]; simp)
        (by rw [claimedLength_rxBytes h, terminator_rxBytes]; exact bad),
      claimedLength_rxBytes h]
  have left : (rxBytes op p q cs t ++ rest).drop (10 + p.length) = t :: rest := by
    rw [show 10 + p.length = p.length + 10 by omega]
    simp [rxBytes, List.drop_append]
  rw [decodePass_drop move, left, behind]
  rfl

/-! ### A mark -/

/-- R80: everything through the `16` of the lowest mark goes, without an event. -/
theorem decodePass_mark {b left : Bytes} {k : Nat} {es : List Event} (long : 11 ≤ b.length) (header : ¬ HasHeader b)
    (here : MarkAt b k) (lowest : ∀ j < k, ¬ MarkAt b j) (behind : decodePass (b.drop (k + 1)) = .ok (left, es)) :
    decodePass b = .ok (left, es) := by
  have move : nextMove b = some (.drop (k + 1) none) := by
    rw [nextMove_noHeader long header, resyncMove, findMark_eq_some.mpr ⟨here, lowest⟩]
  rw [decodePass_drop move, behind]
  rfl

end Sys2Proof.Machine
end

