-- ==== Sys2Proof/Laws/PerInstr.lean ====
section
/-! SUPPORT. One statement per transaction: its bytes begin with its row's code in spec/opcode_table.json. -/

namespace Sys2Proof.Laws.RowCode

/-- The `match` of a transaction's row of spec/opcode_table.json, first byte first. -/
def rowCode : Instr → Bytes
  | .sendReboot => [0xFE, 0xFE, 0x68, 0x25, 0x04]
  | .sendBeeperAndLed _ _ _ _ => [0xFE, 0xFE, 0x68, 0x25, 0x05]
  | .sendHandshake => [0xFE, 0xFE, 0x68, 0x25, 0x06]
  | .sendCardSelectCancel _ => [0xFE, 0xFE, 0x68, 0x25, 0x09]
  | .sendCardPending _ => [0xFE, 0xFE, 0x68, 0x25, 0x0A]
  | .sendM1CardTestRequest _ => [0xFE, 0xFE, 0x68, 0x25, 0x20]
  | .sendM1DownloadPasswordList _ => [0xFE, 0xFE, 0x68, 0x25, 0x21]
  | .sendM1ReadContentByKey _ _ => [0xFE, 0xFE, 0x68, 0x25, 0x22]
  | .sendM1WriteContentByKey _ _ _ => [0xFE, 0xFE, 0x68, 0x25, 0x23]
  | .sendM1ReadContentByCommand _ _ _ => [0xFE, 0xFE, 0x68, 0x25, 0x24]
  | .sendM1WriteContentByCommand _ _ _ _ => [0xFE, 0xFE, 0x68, 0x25, 0x25]
  | .sendCpuCardRequest _ => [0x07]
  | .sendCpuGeneralCommand _ => [0x08]
  | .rxFrame _ _ _ _ _ => [0xFE, 0xFE, 0xFE, 0x68, 0x26]
  | .rxResyncMark => [0x16, 0xFE, 0xFE, 0xFE, 0x68, 0x26]
  | .send _ _ => [0x01]
  | .pack _ _ _ => [0x02]
  | .sum _ _ _ => [0x03]
  | .feed _ => [0x04]
  | .close => [0x05]
  | .reset => [0x06]

/-- The transaction's bytes are its row's code and then its operands. -/
def Statement (i : Instr) : Prop := ∃ operands : Bytes, encode i = rowCode i ++ operands

theorem sendReboot : Statement .sendReboot := ⟨_, rfl⟩
theorem sendBeeperAndLed : ∀ bt bc lt lf, Statement (.sendBeeperAndLed bt bc lt lf) := fun _ _ _ _ => ⟨_, rfl⟩
theorem sendHandshake : Statement .sendHandshake := ⟨_, rfl⟩
theorem sendCardSelectCancel : ∀ d, Statement (.sendCardSelectCancel d) := fun _ => ⟨_, rfl⟩
theorem sendCardPending : ∀ d, Statement (.sendCardPending d) := fun _ => ⟨_, rfl⟩
theorem sendM1CardTestRequest : ∀ t, Statement (.sendM1CardTestRequest t) := fun _ => ⟨_, rfl⟩
theorem sendM1DownloadPasswordList : ∀ gs, Statement (.sendM1DownloadPasswordList gs) := fun _ => ⟨_, rfl⟩
theorem sendM1ReadContentByKey : ∀ b p, Statement (.sendM1ReadContentByKey b p) := fun _ _ => ⟨_, rfl⟩
theorem sendM1WriteContentByKey : ∀ b p c, Statement (.sendM1WriteContentByKey b p c) := fun _ _ _ => ⟨_, rfl⟩
theorem sendM1ReadContentByCommand : ∀ b p w, Statement (.sendM1ReadContentByCommand b p w) := fun _ _ _ => ⟨_, rfl⟩
theorem sendM1WriteContentByCommand : ∀ b p w c, Statement (.sendM1WriteContentByCommand b p w c) := fun _ _ _ _ => ⟨_, rfl⟩
theorem sendCpuCardRequest : ∀ args, Statement (.sendCpuCardRequest args) := fun _ => ⟨_, rfl⟩
theorem sendCpuGeneralCommand : ∀ args, Statement (.sendCpuGeneralCommand args) := fun _ => ⟨_, rfl⟩
theorem rxFrame : ∀ op p q cs t, Statement (.rxFrame op p q cs t) := fun _ _ _ _ _ => ⟨_, rfl⟩
theorem rxResyncMark : Statement .rxResyncMark := ⟨_, rfl⟩
theorem send : ∀ sel args, Statement (.send sel args) := fun _ _ => ⟨_, rfl⟩
theorem pack : ∀ op p q, Statement (.pack op p q) := fun _ _ _ => ⟨_, rfl⟩
theorem sum : ∀ b m n, Statement (.sum b m n) := fun _ _ _ => ⟨_, rfl⟩
theorem feed : ∀ c, Statement (.feed c) := fun _ => ⟨_, rfl⟩
theorem close : Statement .close := ⟨_, rfl⟩
theorem reset : Statement .reset := ⟨_, rfl⟩

end Sys2Proof.Laws.RowCode
end

