-- ==== Sys2Proof/Tests/Slice0.lean ====
section
/-! SUPPORT. The model's own tests. Decoding: words written out from the spec's encodings (30_encoding.md, spec/opcode_table.json)
and the model's operand bytes (log entry 2). Results: vectors of 95_test_vectors.md, named in each comment. Witnesses:
a state and operands that meet a statement's hypotheses, a clause each, at the edges of their ranges. -/

namespace Sys2Proof.Tests

open Machine Safety

/-! ### Helpers -/

/-- What a transaction left: its result, `SEQ`, `STATE` and `RXBUF`. -/
def left (i : Instr) (s : State) : Option (Option Result × Byte × Session × Bytes) :=
  match exec i s with
  | .next t    => some (t.result, t.seq, t.session, t.rxbuf)
  | .fault _   => none
  | .refused _ => none

/-- The name of a refusal. -/
def refusedAs (i : Instr) (s : State) : Option Refusal :=
  match exec i s with
  | .next _    => none
  | .fault _   => none
  | .refused r => some r

/-- The result of one step. -/
def stepResult (s : State) : Option Result :=
  match step s with
  | .next t    => t.result
  | .fault _   => none
  | .refused _ => none

/-- What a frame sent from `SEQ = 00` leaves. -/
def sentOnce (f : Bytes) : Option (Option Result × Byte × Session × Bytes) := some (some (.okFrame f), 1, .opened, [])

/-- What a `SEND` from `SEQ = 00` leaves that raised a status. -/
def refusedWith (st : Status) : Option (Option Result × Byte × Session × Bytes) := some (some (.raised st), 0, .opened, [])

/-- What a `FEED` after reset leaves. -/
def fed (es : List Event) (b : Bytes) : Option (Option Result × Byte × Session × Bytes) :=
  some (some (.okEvents es), 0, .opened, b)

/-- A closed session. -/
def closedState : State := { State.reset with seq := 7, session := .closed }

/-- Frame `A` of 95_test_vectors.md. -/
def frameA : Bytes := [0xFE, 0xFE, 0xFE, 0x68, 0x26, 0x06, 0x00, 0x00, 0x01, 0x95, 0x16]
/-- Frame `A'`: `A` with its terminator replaced by `00`. -/
def badA : Bytes := [0xFE, 0xFE, 0xFE, 0x68, 0x26, 0x06, 0x00, 0x00, 0x01, 0x95, 0x00]
/-- Frame `B`. -/
def frameB : Bytes := [0xFE, 0xFE, 0xFE, 0x68, 0x26, 0x22, 0x00, 0x02, 0x11, 0x22, 0x02, 0xE7, 0x16]

/-! ### Decoding, row by row -/

theorem test_decode_sendReboot : decodeWhole [0xFE, 0xFE, 0x68, 0x25, 0x04] = .ok .sendReboot := by decide
/-- Unset is 00; set is 01 and the integer, here 4660, 5, 22136 and -1. -/
theorem test_decode_sendBeeperAndLed :
    decodeWhole [0xFE, 0xFE, 0x68, 0x25, 0x05, 0x01, 0xE8, 0x48, 0x01, 0x0A, 0x00, 0x01, 0x01]
      = .ok (.sendBeeperAndLed (some 4660) (some 5) none (some (-1))) := by decide +kernel
theorem test_decode_sendHandshake : decodeWhole [0xFE, 0xFE, 0x68, 0x25, 0x06] = .ok .sendHandshake := by decide
theorem test_decode_sendCardSelectCancel :
    decodeWhole [0xFE, 0xFE, 0x68, 0x25, 0x09, 0xD0, 0x0F] = .ok (.sendCardSelectCancel 1000) := by decide
theorem test_decode_sendCardPending :
    decodeWhole [0xFE, 0xFE, 0x68, 0x25, 0x0A, 0xE8, 0x07] = .ok (.sendCardPending 500) := by decide
theorem test_decode_sendM1CardTestRequest :
    decodeWhole [0xFE, 0xFE, 0x68, 0x25, 0x20, 0x4C] = .ok (.sendM1CardTestRequest 0x26) := by decide
theorem test_decode_sendM1DownloadPasswordList :
    decodeWhole [0xFE, 0xFE, 0x68, 0x25, 0x21, 0x01, 0x01, 0x02, 0x04, 0x06, 1, 2, 3, 4, 5, 6]
      = .ok (.sendM1DownloadPasswordList (some [⟨1, 2, [1, 2, 3, 4, 5, 6]⟩])) := by decide
theorem test_decode_sendM1ReadContentByKey :
    decodeWhole [0xFE, 0xFE, 0x68, 0x25, 0x22, 0x80, 0x04, 0x02] = .ok (.sendM1ReadContentByKey 256 1) := by
  decide
theorem test_decode_sendM1WriteContentByKey :
    decodeWhole [0xFE, 0xFE, 0x68, 0x25, 0x23, 0x08, 0x02, 0x03, 0xAA, 0xBB, 0xCC]
      = .ok (.sendM1WriteContentByKey 4 1 [0xAA, 0xBB, 0xCC]) := by decide
theorem test_decode_sendM1ReadContentByCommand :
    decodeWhole [0xFE, 0xFE, 0x68, 0x25, 0x24, 0x10, 0x00, 0x02, 0xA0, 0xA1]
      = .ok (.sendM1ReadContentByCommand 8 0 [0xA0, 0xA1]) := by decide
theorem test_decode_sendM1WriteContentByCommand :
    decodeWhole [0xFE, 0xFE, 0x68, 0x25, 0x25, 0x12, 0x04, 0x01, 0xA0, 0x02, 0x11, 0x12]
      = .ok (.sendM1WriteContentByCommand 9 2 [0xA0] [0x11, 0x12]) := by decide
theorem test_decode_sendCpuCardRequest :
    decodeWhole [0x07, 0x01, 0x04, 0x00, 0x02] = .ok (.sendCpuCardRequest [⟨.durationMs, .int 1⟩]) := by decide
theorem test_decode_sendCpuGeneralCommand : decodeWhole [0x08, 0x00] = .ok (.sendCpuGeneralCommand []) := by
  decide
/-- Frame `B` (R36): opcode 22, length 0002, payload 11 22, sequence 02, checksum E7, terminator 16. -/
theorem test_decode_rxFrame : decodeWhole frameB = .ok (.rxFrame 0x22 [0x11, 0x22] 0x02 0xE7 0x16) := by decide
theorem test_decode_rxResyncMark : decodeWhole [0x16, 0xFE, 0xFE, 0xFE, 0x68, 0x26] = .ok .rxResyncMark := by
  decide
theorem test_decode_send :
    decodeWhole [0x01, 0x22, 0x02, 0x08, 0x00, 0x0E, 0x07, 0x00, 0x08]
      = .ok (.send 0x22 [⟨.passwordType, .int 7⟩, ⟨.block, .int 4⟩]) := by decide
theorem test_decode_pack : decodeWhole [0x02, 0xFF, 0x02, 0x16, 0xFE, 0xFE] = .ok (.pack 0xFF [0x16, 0xFE] 0xFE) := by
  decide
theorem test_decode_sum : decodeWhole [0x03, 0x02, 0x68, 0x25, 0x01, 0x02] = .ok (.sum [0x68, 0x25] 1 2) := by
  decide
theorem test_decode_feed : decodeWhole [0x04, 0x02, 0xFE, 0x16] = .ok (.feed [0xFE, 0x16]) := by decide
theorem test_decode_close : decodeWhole [0x05] = .ok .close := by decide
theorem test_decode_reset : decodeWhole [0x06] = .ok .reset := by decide

/-- What is no row is rejected by name: kind code 00, opcode 03 behind the TX header, opcode 07 behind it (the CPU rows have
no frame), bytes that end too soon, a byte too many. -/
theorem test_decode_rejects :
    decodeWhole [0x00] = .error .noSuchRow ∧ decodeWhole [0xFE, 0xFE, 0x68, 0x25, 0x03] = .error .noSuchRow ∧
    decodeWhole [0xFE, 0xFE, 0x68, 0x25, 0x07] = .error .noSuchRow ∧ decodeWhole [] = .error .truncated ∧
    decodeWhole [0x04, 0x02, 0x16] = .error .truncated ∧ decodeWhole [0x05, 0x00] = .error .surplus ∧
    decodeWhole [0x04, 0x80, 0x00] = .error .overlong ∧ decodeWhole [0x07, 0x01, 0x0B] = .error .badTag := by
  decide

/-- Table words (spec/opcode_table.json `match`), operands of zeros. -/
theorem test_table_words :
    decodeTableWord 8 0x01 = some (.send 0 []) ∧ decodeTableWord 8 0x02 = some (.pack 0 [] 0) ∧
    decodeTableWord 8 0x03 = some (.sum [] 0 0) ∧ decodeTableWord 8 0x04 = some (.feed []) ∧
    decodeTableWord 8 0x05 = some .close ∧ decodeTableWord 8 0x06 = some .reset ∧
    decodeTableWord 8 0x07 = some (.sendCpuCardRequest []) ∧ decodeTableWord 8 0x08 = some (.sendCpuGeneralCommand []) ∧
    decodeTableWord 40 0xFEFE682504 = some .sendReboot ∧
    decodeTableWord 40 0xFEFE682505 = some (.sendBeeperAndLed none none none none) ∧
    decodeTableWord 40 0xFEFE682525 = some (.sendM1WriteContentByCommand 0 0 [] []) ∧
    decodeTableWord 40 0xFEFEFE6826 = some (.rxFrame 0 [] 0 0 0) ∧
    decodeTableWord 48 0x16FEFEFE6826 = some .rxResyncMark ∧ decodeTableWord 8 0x09 = none := by
  decide

/-- The same code with the first byte on the wire lowest (log entry 3). -/
theorem test_table_word_low_first :
    decodeTableWord 40 0x042568FEFE = some .sendReboot ∧ decodeTableWord 40 0x2668FEFEFE = some (.rxFrame 0 [] 0 0 0) ∧
    decodeTableWord 48 0x2668FEFEFE16 = some .rxResyncMark := by decide

/-- `withFetchWord` makes the next step run exactly that transaction (vectors T1, T2, T36). -/
theorem test_first_step :
    stepResult (State.reset.withFetchWord 40 0xFEFE682504)
      = some (.okFrame [0xFE, 0xFE, 0x68, 0x25, 0x04, 0x00, 0x00, 0x01, 0x92, 0x16]) ∧
    stepResult (State.reset.withFetchWord 40 0xFEFE682505)
      = some (.okFrame [0xFE, 0xFE, 0x68, 0x25, 0x05, 0x00, 0x06, 0x02, 0x00, 0x80, 0x00, 0x04, 0x80, 0x01, 0x9F, 0x16]) ∧
    stepResult (State.reset.withFetchWord 8 0x07) = some (.raised .notImplemented) ∧
    stepResult (State.reset.withFetchWord 8 0x05) = some .ok := by
  decide

/-! ### WellFormed: an ill-formed term for each check, refused by it and by name -/

theorem test_wf_beeperTime : (Instr.sendBeeperAndLed (some 65536) none none none).wellFormed = false := by decide
theorem test_wf_beeperCycle : (Instr.sendBeeperAndLed none (some 256) none none).wellFormed = false := by decide
theorem test_wf_ledTime : (Instr.sendBeeperAndLed none none (some (-1)) none).wellFormed = false := by decide
theorem test_wf_ledFlashCycle : (Instr.sendBeeperAndLed none none none (some 256)).wellFormed = false := by decide
theorem test_wf_beeper_partly : (Instr.sendBeeperAndLed (some 5) none (some 1) (some 1)).wellFormed = false := by decide
theorem test_wf_durations :
    (Instr.sendCardSelectCancel 65536).wellFormed = false ∧ (Instr.sendCardPending (-1)).wellFormed = false := by decide
theorem test_wf_type : (Instr.sendM1CardTestRequest 256).wellFormed = false := by decide
theorem test_wf_groups :
    (Instr.sendM1DownloadPasswordList (some [⟨256, 0, [1, 2, 3, 4, 5, 6]⟩])).wellFormed = false ∧
    (Instr.sendM1DownloadPasswordList (some [⟨1, 3, [1, 2, 3, 4, 5, 6]⟩])).wellFormed = false ∧
    (Instr.sendM1DownloadPasswordList (some [⟨1, 0, [1, 2, 3, 4, 5]⟩])).wellFormed = false := by decide
theorem test_wf_group_count :
    (Instr.sendM1DownloadPasswordList (some (List.replicate 256 ⟨1, 0, [1, 2, 3, 4, 5, 6]⟩))).wellFormed = false := by
  decide +kernel
theorem test_wf_block :
    (Instr.sendM1ReadContentByKey (-1) 0).wellFormed = false ∧ (Instr.sendM1WriteContentByKey (-1) 0 []).wellFormed = false ∧
    (Instr.sendM1ReadContentByCommand (-1) 0 []).wellFormed = false ∧
    (Instr.sendM1WriteContentByCommand (-1) 0 [] []).wellFormed = false := by decide
theorem test_wf_passwordType :
    (Instr.sendM1ReadContentByKey 0 3).wellFormed = false ∧ (Instr.sendM1WriteContentByKey 0 3 []).wellFormed = false ∧
    (Instr.sendM1ReadContentByCommand 0 3 []).wellFormed = false ∧
    (Instr.sendM1WriteContentByCommand 0 3 [] []).wellFormed = false := by decide
theorem test_wf_send_selector : (Instr.send 0x03 []).wellFormed = false := by decide
/-- An unknown name, a name twice, a missing argument, a wrong kind of value, a value outside its type. -/
theorem test_wf_send_arguments :
    (Instr.send 0x06 [⟨.block, .int 1⟩]).wellFormed = false ∧
    (Instr.send 0x09 [⟨.durationMs, .int 1⟩, ⟨.durationMs, .int 1⟩]).wellFormed = false ∧
    (Instr.send 0x22 [⟨.block, .int 1⟩]).wellFormed = false ∧
    (Instr.send 0x09 [⟨.durationMs, .bytes []⟩]).wellFormed = false ∧
    (Instr.send 0x09 [⟨.durationMs, .int 65536⟩]).wellFormed = false ∧
    (Instr.send 0x05 [⟨.beeperTime, .int 5⟩]).wellFormed = false := by decide
theorem test_wf_pack (p : Bytes) (long : p.length = 65536) : (Instr.pack 0 p 0).wellFormed = false := by
  simp [Instr.wellFormed, maxPayload, long]
theorem test_wf_rxFrame (p : Bytes) (long : p.length = 65536) :
    (Instr.rxFrame 0 p 0 0 0).wellFormed = false ∧ (Instr.rxFrame 0 p 0 0 0).encodable = false := by
  simp [Instr.wellFormed, Instr.encodable, maxPayload, long]
theorem test_wf_sum : (Instr.sum [1, 2] 2 1).wellFormed = false ∧ (Instr.sum [1, 2] 0 3).wellFormed = false := by decide

/-! ### One step each: vectors of 95_test_vectors.md -/

/-- T1. -/
theorem test_sendReboot :
    left .sendReboot State.reset = sentOnce [0xFE, 0xFE, 0x68, 0x25, 0x04, 0x00, 0x00, 0x01, 0x92, 0x16] := by
  decide
/-- T4: beeperTime big-endian, ledTime little-endian. -/
theorem test_sendBeeperAndLed_orders :
    left (.sendBeeperAndLed (some 0x1234) (some 0x05) (some 0x5678) (some 0x09)) State.reset
      = sentOnce [0xFE, 0xFE, 0x68, 0x25, 0x05, 0x00, 0x06, 0x12, 0x34, 0x05, 0x78, 0x56, 0x09, 0x01, 0xBB, 0x16] := by
  decide
/-- T3: zero beeperTime, all four replaced. -/
theorem test_sendBeeperAndLed_defaults :
    left (.sendBeeperAndLed (some 0) (some 1) (some 2) (some 3)) State.reset
      = sentOnce [0xFE, 0xFE, 0x68, 0x25, 0x05, 0x00, 0x06, 0x02, 0x00, 0x80, 0x00, 0x04, 0x80, 0x01, 0x9F, 0x16] := by
  decide
/-- T8: the counter wraps. -/
theorem test_sendHandshake_wraps :
    left .sendHandshake { State.reset with seq := 0xFF }
      = some (some (.okFrame [0xFE, 0xFE, 0x68, 0x25, 0x06, 0x00, 0x00, 0x00, 0x93, 0x16]), 0, .opened, []) := by
  decide
/-- T38: rejected when closed; `SEQ` stays. -/
theorem test_sendHandshake_closed : left .sendHandshake closedState = some (some (.raised .closed), 7, .closed, []) := by
  decide
/-- T9. -/
theorem test_sendCardSelectCancel :
    left (.sendCardSelectCancel 1000) State.reset
      = sentOnce [0xFE, 0xFE, 0x68, 0x25, 0x09, 0x00, 0x02, 0x03, 0xE8, 0x01, 0x84, 0x16] := by decide
/-- T11. -/
theorem test_sendCardPending :
    left (.sendCardPending 500) State.reset
      = sentOnce [0xFE, 0xFE, 0x68, 0x25, 0x0A, 0x00, 0x02, 0x01, 0xF4, 0x01, 0x8F, 0x16] := by decide
/-- T14: the sum's carry is lost. -/
theorem test_sendM1CardTestRequest :
    left (.sendM1CardTestRequest 0x52) State.reset
      = sentOnce [0xFE, 0xFE, 0x68, 0x25, 0x20, 0x00, 0x01, 0x52, 0x01, 0x01, 0x16] := by decide
/-- T41. -/
theorem test_sendM1CardTestRequest_type : refusedAs (.sendM1CardTestRequest 0x100) State.reset = some .argType := by
  decide
/-- T16: two groups, in order. -/
theorem test_sendM1DownloadPasswordList :
    left (.sendM1DownloadPasswordList (some [⟨0, 1, [1, 2, 3, 4, 5, 6]⟩, ⟨0xFF, 2, [10, 10, 10, 10, 10, 10]⟩]))
      State.reset
      = sentOnce [0xFE, 0xFE, 0x68, 0x25, 0x21, 0x00, 0x11, 0x02, 0x00, 0x01, 1, 2, 3, 4, 5, 6, 0xFF, 0x02, 10, 10, 10, 10,
          10, 10, 0x01, 0x15, 0x16] := by decide
/-- T17 and T18. -/
theorem test_sendM1DownloadPasswordList_empty :
    left (.sendM1DownloadPasswordList (some [])) State.reset = refusedWith (.validation .emptyList) ∧
    left (.sendM1DownloadPasswordList none) State.reset = refusedWith (.validation .emptyList) := by decide
/-- T19 and T21. -/
theorem test_sendM1ReadContentByKey :
    left (.sendM1ReadContentByKey 255 0) State.reset
      = sentOnce [0xFE, 0xFE, 0x68, 0x25, 0x22, 0x00, 0x02, 0xFF, 0x00, 0x01, 0xB1, 0x16] ∧
    left (.sendM1ReadContentByKey 0 2) State.reset
      = sentOnce [0xFE, 0xFE, 0x68, 0x25, 0x22, 0x00, 0x02, 0x00, 0x02, 0x01, 0xB4, 0x16] := by decide
/-- T20 and T40. -/
theorem test_sendM1ReadContentByKey_block :
    left (.sendM1ReadContentByKey 256 0) State.reset = refusedWith (.validation .blockRange) ∧
    refusedAs (.sendM1ReadContentByKey (-1) 0) State.reset = some .argType := by decide
/-- T23. -/
theorem test_sendM1WriteContentByKey :
    left (.sendM1WriteContentByKey 4 1 [0, 1, 2, 3, 4, 5, 6, 7, 8, 9, 10, 11, 12, 13, 14, 15]) State.reset
      = sentOnce [0xFE, 0xFE, 0x68, 0x25, 0x23, 0x00, 0x12, 0x04, 0x01, 0, 1, 2, 3, 4, 5, 6, 7, 8, 9, 10, 11, 12, 13, 14, 15,
          0x01, 0x40, 0x16] := by decide
/-- T24 to T27. -/
theorem test_sendM1WriteContentByKey_checks :
    (∀ n ∈ [0, 15, 17],
      left (.sendM1WriteContentByKey 4 1 (List.replicate n 0)) State.reset = refusedWith (.validation .contentLength)) ∧
    left (.sendM1WriteContentByKey 256 1 (List.replicate 15 0)) State.reset = refusedWith (.validation .blockRange) := by
  decide
/-- T28. -/
theorem test_sendM1ReadContentByCommand :
    left (.sendM1ReadContentByCommand 8 0 [0xA0, 0xA1, 0xA2, 0xA3, 0xA4, 0xA5]) State.reset
      = sentOnce [0xFE, 0xFE, 0x68, 0x25, 0x24, 0x00, 0x08, 0x08, 0x00, 0xA0, 0xA1, 0xA2, 0xA3, 0xA4, 0xA5, 0x01, 0x91, 0x16] := by
  decide
/-- T29 to T31. -/
theorem test_sendM1ReadContentByCommand_checks :
    left (.sendM1ReadContentByCommand 8 0 (List.replicate 5 0)) State.reset = refusedWith (.validation .passwordLength) ∧
    left (.sendM1ReadContentByCommand 8 0 (List.replicate 7 0)) State.reset = refusedWith (.validation .passwordLength) ∧
    left (.sendM1ReadContentByCommand 300 0 (List.replicate 5 0)) State.reset = refusedWith (.validation .blockRange) := by
  decide
/-- T32. -/
theorem test_sendM1WriteContentByCommand :
    left (.sendM1WriteContentByCommand 9 2 (List.replicate 6 0xFF) (List.replicate 16 0x11)) State.reset
      = sentOnce ([0xFE, 0xFE, 0x68, 0x25, 0x25, 0x00, 0x18, 0x09, 0x02] ++ List.replicate 6 0xFF ++ List.replicate 16 0x11 ++
          [0x01, 0xE0, 0x16]) := by decide
/-- T33 to T35. -/
theorem test_sendM1WriteContentByCommand_checks :
    left (.sendM1WriteContentByCommand 9 2 (List.replicate 5 0) (List.replicate 15 0)) State.reset
      = refusedWith (.validation .passwordLength) ∧
    left (.sendM1WriteContentByCommand 9 2 (List.replicate 6 0xFF) (List.replicate 15 0)) State.reset
      = refusedWith (.validation .contentLength) ∧
    left (.sendM1WriteContentByCommand 256 2 (List.replicate 5 0) (List.replicate 15 0)) State.reset
      = refusedWith (.validation .blockRange) := by decide
/-- T36 and T39: CLOSED comes before NOT_IMPLEMENTED. -/
theorem test_sendCpuCardRequest :
    left (.sendCpuCardRequest []) State.reset = refusedWith .notImplemented ∧
    left (.sendCpuCardRequest []) closedState = some (some (.raised .closed), 7, .closed, []) := by decide
/-- T37. -/
theorem test_sendCpuGeneralCommand : left (.sendCpuGeneralCommand []) State.reset = refusedWith .notImplemented := by
  decide
/-- T22 through the generic row, the names in the other order. -/
theorem test_send :
    left (.send 0x22 [⟨.passwordType, .int 1⟩, ⟨.block, .int 4⟩]) { State.reset with seq := 1 }
      = some (some (.okFrame [0xFE, 0xFE, 0x68, 0x25, 0x22, 0x00, 0x02, 0x04, 0x01, 0x02, 0xB8, 0x16]), 2, .opened, []) := by
  decide
/-- T42, and T6 through the generic row. -/
theorem test_send_refused :
    refusedAs (.send 0x03 []) State.reset = some .noSuchOperation ∧
    refusedAs (.send 0x05 [⟨.beeperTime, .int 5⟩, ⟨.ledTime, .int 1⟩, ⟨.ledFlashCycle, .int 1⟩]) State.reset
      = some .argType := by decide
/-- K2 and K9. -/
theorem test_pack :
    left (.pack 0xFF [0x16, 0xFE] 0xFE) State.reset
      = some (some (.okFrame [0xFE, 0xFE, 0x68, 0x25, 0xFF, 0x00, 0x02, 0x16, 0xFE, 0xFE, 0xA0, 0x16]), 0, .opened, []) ∧
    left (.pack 0x06 [] 0x01) closedState
      = some (some (.okFrame [0xFE, 0xFE, 0x68, 0x25, 0x06, 0x00, 0x00, 0x01, 0x94, 0x16]), 7, .closed, []) := by
  decide
/-- K6: a length above 255. -/
theorem test_pack_long :
    left (.pack 0x30 (List.replicate 256 1) 0) State.reset
      = some (some (.okFrame ([0xFE, 0xFE, 0x68, 0x25, 0x30, 0x01, 0x00] ++ List.replicate 256 1 ++ [0x00, 0xBE, 0x16])), 0,
          .opened, []) := by decide +kernel
/-- S1, S2 and S4. -/
theorem test_sum :
    left (.sum [0x68, 0x25, 0x06, 0x00, 0x00, 0x01] 0 6) State.reset = some (some (.okValue 0x94), 0, .opened, []) ∧
    left (.sum [0x68, 0x25] 1 1) State.reset = some (some (.okValue 0x00), 0, .opened, []) ∧
    left (.sum [0x80, 0x80] 0 2) State.reset = some (some (.okValue 0x00), 0, .opened, []) := by decide
/-- S8 and S9. -/
theorem test_sum_range :
    refusedAs (.sum [1, 2] 2 1) State.reset = some .sumRange ∧ refusedAs (.sum [1, 2] 0 3) State.reset = some .sumRange := by
  decide
/-- V1, V4 and V19 as an arriving frame. -/
theorem test_rxFrame :
    left (.rxFrame 0x06 [] 0x01 0x95 0x16) State.reset = fed [.emit []] [] ∧
    left (.rxFrame 0x06 [] 0x01 0x00 0x16) State.reset = fed [.framing .badChecksum] [] ∧
    left (.rxFrame 0x06 [] 0x01 0x00 0x00) State.reset = fed [.framing .badTerminator] [0x00] := by decide
/-- V26 and V27: six bytes alone wait; behind five bytes of noise the mark is found. -/
theorem test_rxResyncMark :
    left .rxResyncMark State.reset = fed [] [0x16, 0xFE, 0xFE, 0xFE, 0x68, 0x26] ∧
    left .rxResyncMark { State.reset with rxbuf := [0, 0, 0, 0, 0] } = fed [] [0xFE, 0xFE, 0xFE, 0x68, 0x26] := by
  decide
/-- V7: the frame after the one that is lost is decoded. -/
theorem test_feed_recovers :
    left (.feed (badA ++ frameB ++ [0xFE, 0xFE, 0xFE, 0x68, 0x26, 0x21, 0x00, 0x01, 0xAB, 0x04, 0x5F, 0x16])) State.reset
      = fed [.framing .badTerminator, .emit [0xAB]] [] := by decide
/-- V13: a mark inside a payload is taken. -/
theorem test_feed_false_mark :
    left (.feed ([0x00, 0xFE, 0xFE, 0xFE, 0x68, 0x26, 0x20, 0x00, 0x06, 0x16, 0xFE, 0xFE, 0xFE, 0x68, 0x26, 0x03, 0x55, 0x16]
        ++ frameA)) State.reset
      = fed [] ([0xFE, 0xFE, 0xFE, 0x68, 0x26, 0x03, 0x55, 0x16] ++ frameA) := by decide
/-- Z1: the partial frame goes; `SEQ` stays. -/
theorem test_close :
    left .close { State.reset with seq := 9, rxbuf := [0xFE, 0xFE, 0xFE, 0x68, 0x26, 0x06] }
      = some (some .ok, 9, .closed, []) := by decide
/-- Z4: the backlog goes; `SEQ` starts again. -/
theorem test_reset :
    left .reset { closedState with rxbuf := [0x00, 0x01, 0x02] } = some (some .ok, 0, .opened, []) := by decide

/-! ### Witnesses: the hypotheses of each statement can be met -/

theorem admits_reset (n : Nat) : Admits State.reset n := ⟨rfl, fun _ h => by cases h⟩

/-- A state after reset that holds these bytes. -/
def holding (b : Bytes) : State := { State.reset with rxbuf := b }

theorem admits_holding (b : Bytes) (n : Nat) : Admits (holding b) n := ⟨rfl, fun _ h => by cases h⟩

/-- A buffer whose capacity is reached exactly admits the chunk; one byte more does not. -/
theorem witness_Admits_at_capacity :
    Admits { State.reset with bufCap := some 3, rxbuf := [1] } 2 ∧
    ¬ Admits { State.reset with bufCap := some 3, rxbuf := [1] } 3 := by
  constructor
  · exact ⟨rfl, fun _ h => by cases h; decide⟩
  · intro h
    exact absurd (h.2 3 rfl) (by decide)

theorem witness_StepRunsTheDecodedTransaction :
    (present [0x05] (present [0x06] State.reset)).pending = [0x05] :: [[0x06]] ∧ decodeWhole [0x05] = .ok .close := by
  decide
theorem witness_StepWaitsOrRefusesUndecodable :
    State.reset.pending = [] ∧ (present [0x00] State.reset).pending = [0x00] :: [] ∧
    decodeWhole [0x00] = .error .noSuchRow := by decide
/-- A payload of any length the field can give, 65535 too, and an operand outside its type. -/
theorem witness_DecodeOfEncode (p : Bytes) (fits : p.length ≤ 65535) :
    (Instr.rxFrame 0xFF p 0 0 0).encodable = true ∧ (Instr.sendM1ReadContentByKey (-1) 256).encodable = true := by
  simp [Instr.encodable, maxPayload, fits]
theorem witness_EncodeOfDecode : decode [0x04, 0x01, 0x16, 0x05] = .ok (.feed [0x16], [0x05]) := by decide
/-- The empty range at the end, a range that ends before it starts, and one that ends one byte too late. -/
theorem witness_SumAddsTheRange :
    (2 ≤ 2 ∧ 2 ≤ ([1, 2] : Bytes).length) ∧ (1 < 2) ∧ ([1, 2] : Bytes).length < 3 := by decide
/-- Two ranges that are permutations of one another, inside longer sequences; the last byte taken in, and an empty range at
the end. -/
theorem witness_SumLaws :
    (0 ≤ 1 ∧ 1 ≤ 3 ∧ 3 ≤ ([1, 2, 3] : Bytes).length) ∧
    (1 ≤ 3 ∧ 3 ≤ ([9, 1, 2, 9] : Bytes).length ∧ 0 ≤ 2 ∧ 2 ≤ ([2, 1, 7] : Bytes).length ∧
      ((([9, 1, 2, 9] : Bytes).drop 1).take (3 - 1)).Perm ((([2, 1, 7] : Bytes).drop 0).take (2 - 0))) ∧
    (1 ≤ 2 ∧ 2 ≤ ([1, 2, 3] : Bytes).length ∧ ([1, 2, 3] : Bytes)[2]? = some 3) ∧
    3 ≤ ([1, 2, 3] : Bytes).length := by decide
theorem witness_PackBuildsTheTxFrame : (List.replicate 65535 (0 : Byte)).length ≤ 65535 := by
  rw [List.length_replicate]
theorem witness_PackFrameProperties :
    ∃ t, exec (.pack 0x06 [] 0x01) closedState = .next t ∧
      t.result = some (.okFrame [0xFE, 0xFE, 0x68, 0x25, 0x06, 0x00, 0x00, 0x01, 0x94, 0x16]) := ⟨_, rfl, rfl⟩
theorem witness_PackIsInjective :
    ([0x16] : Bytes).length ≤ 65535 ∧ exec (.pack 6 [0x16] 1) State.reset = exec (.pack 6 [0x16] 1) State.reset :=
  ⟨by decide, rfl⟩
theorem witness_open_session : State.reset.session = .opened ∧ ({ State.reset with seq := 0xFF }).session = .opened := by
  decide
theorem witness_BeeperAndLedEncodesItsArguments :
    (0 < 1 ∧ 1 ≤ 65535 ∧ 0 ≤ 255) ∧ (0 < 65535 ∧ 65535 ≤ 65535 ∧ 255 ≤ 255) ∧ State.reset.session = .opened := by decide
theorem witness_BeeperAndLedSubstitutesDefaults :
    State.reset.session = .opened ∧ ((none : Option Int) = none ∨ (none : Option Int) = some 0) ∧
    (some (0 : Int) = none ∨ some (0 : Int) = some 0) ∧ unsetOr isU8 none = true ∧ unsetOr isU8 (some 255) = true ∧
    unsetOr isU16 (some 65535) = true := by decide
theorem witness_DurationCommandFrames : State.reset.session = .opened ∧ 0 ≤ 65535 ∧ 65535 ≤ 65535 := by decide
theorem witness_CardTestRequestFrame : State.reset.session = .opened ∧ 0 ≤ 255 ∧ 255 ≤ 255 := by decide
theorem witness_PasswordListFrame :
    State.reset.session = .opened ∧ ([⟨255, 2, [1, 2, 3, 4, 5, 6]⟩] : List GroupArg) ≠ [] ∧
    groupsWellFormed (some [⟨255, 2, [1, 2, 3, 4, 5, 6]⟩]) = true ∧
    groupsWellFormed (some (List.replicate 255 ⟨0, 0, [1, 2, 3, 4, 5, 6]⟩)) = true := by decide +kernel
/-- For the four statements about opcodes 22 to 25: a block inside, at and past its range, lengths right and wrong. -/
theorem witness_block_commands :
    State.reset.session = .opened ∧ 0 ≤ 2 ∧ 2 ≤ 2 ∧ ¬ 255 < 255 ∧ 255 < 256 ∧
    ¬ (List.replicate 6 (0 : Byte)).length ≠ 6 ∧ (List.replicate 5 (0 : Byte)).length ≠ 6 ∧
    ¬ (List.replicate 16 (0 : Byte)).length ≠ 16 ∧ (List.replicate 17 (0 : Byte)).length ≠ 16 := by decide
theorem witness_NotImplementedByCpuOperationsOnly :
    State.reset.session = .opened ∧
    ∃ t, exec (.send 0x08 [⟨.block, .int (-1)⟩]) State.reset = .next t ∧ t.result = some (.raised .notImplemented) :=
  ⟨rfl, _, rfl, rfl⟩
theorem witness_SendInClosedIsRejected :
    isSend (.send 0x06 []) = true ∧ (Instr.send 0x06 []).wellFormed = true ∧ closedState.session = .closed := by decide
theorem witness_SendRunsTheSelectedOperation :
    State.reset.session = .opened ∧
    ([⟨.ledTime, .int 1⟩, ⟨.beeperTime, .int 0⟩] : List Arg).Perm
      (((some (0 : Int)).toList.map fun v => ⟨.beeperTime, .int v⟩) ++
        ((none : Option Int).toList.map fun v => ⟨.beeperCycle, .int v⟩) ++
        ((some (1 : Int)).toList.map fun v => ⟨.ledTime, .int v⟩) ++
        ((none : Option Int).toList.map fun v => ⟨.ledFlashCycle, .int v⟩)) ∧
    ([⟨.passwordType, .int 1⟩, ⟨.block, .int 4⟩] : List Arg).Perm [⟨.block, .int 4⟩, ⟨.passwordType, .int 1⟩] ∧
    ([⟨.content, .bytes []⟩, ⟨.block, .int 4⟩, ⟨.passwordType, .int 1⟩] : List Arg).Perm
      [⟨.block, .int 4⟩, ⟨.passwordType, .int 1⟩, ⟨.content, .bytes []⟩] ∧
    ([⟨.password, .bytes [7]⟩, ⟨.block, .int 4⟩, ⟨.passwordType, .int 1⟩] : List Arg).Perm
      [⟨.block, .int 4⟩, ⟨.passwordType, .int 1⟩, ⟨.password, .bytes [7]⟩] ∧
    ([⟨.content, .bytes []⟩, ⟨.block, .int 4⟩, ⟨.password, .bytes [7]⟩, ⟨.passwordType, .int 1⟩] : List Arg).Perm
      [⟨.block, .int 4⟩, ⟨.passwordType, .int 1⟩, ⟨.password, .bytes [7]⟩, ⟨.content, .bytes []⟩] ∧
    (0x03 : Byte) ∉ ([0x04, 0x05, 0x06, 0x07, 0x08, 0x09, 0x0A, 0x20, 0x21, 0x22, 0x23, 0x24, 0x25] : List Byte) := by
  decide
theorem witness_IllFormedIsRefused : (Instr.sendCardPending 65536).wellFormed = false := by decide
/-- A well-formed transaction that completes, and one past the capacity. -/
theorem witness_WellFormedCompletes :
    (Instr.feed [1]).wellFormed = true ∧ (∃ t, exec (.feed [1]) State.reset = .next t) ∧
    exec (.feed [1]) { State.reset with bufCap := some 0 } = .refused .bufOverflow := ⟨rfl, ⟨_, rfl⟩, rfl⟩
theorem witness_SuccessfulSendTakesTheNextSequence :
    isSend .sendReboot = true ∧
    (∃ t, exec .sendReboot { State.reset with seq := 0xFF } = .next t ∧ ∀ st, t.result ≠ some (.raised st)) ∧
    (∃ t, runAll [.sendReboot, .sendCpuCardRequest [], .sendHandshake] State.reset = .next t ∧
      t.txout[1]? = some [0xFE, 0xFE, 0x68, 0x25, 0x06, 0x00, 0x00, 0x02, 0x95, 0x16]) :=
  ⟨rfl, ⟨_, rfl, fun _ h => by cases h⟩, ⟨_, rfl, rfl⟩⟩
theorem witness_FailedSendChangesNothing :
    isSend (.sendM1DownloadPasswordList none) = true ∧
    ∃ t, exec (.sendM1DownloadPasswordList none) State.reset = .next t ∧
      t.result = some (.raised (.validation .emptyList)) := ⟨rfl, _, rfl, rfl⟩
/-- For the statements about every transaction that completes: one of each kind of clause. -/
theorem witness_completions :
    (∃ t, exec .reset closedState = .next t) ∧ (∃ t, exec .close State.reset = .next t) ∧
    (∃ t, exec .sendReboot State.reset = .next t) ∧ (∃ t, exec .sendReboot closedState = .next t) ∧
    (∃ t, exec (.sum [] 0 0) State.reset = .next t) ∧ (∃ t, exec (.feed [1]) State.reset = .next t) ∧
    isSend (.feed [1]) = false ∧ arrival (.feed [1]) = some [1] ∧ arrival (.sum [] 0 0) = none ∧
    (arrival .rxResyncMark).isSome = true :=
  ⟨⟨_, rfl⟩, ⟨_, rfl⟩, ⟨_, rfl⟩, ⟨_, rfl⟩, ⟨_, rfl⟩, ⟨_, rfl⟩, rfl, rfl, rfl, rfl⟩
theorem witness_SendAndFeedAreIndependent :
    isSend .sendReboot = true ∧ (∃ t, exec .sendReboot State.reset = .next t) ∧
    (∃ u, exec (.feed [1]) State.reset = .next u) := ⟨rfl, ⟨_, rfl⟩, ⟨_, rfl⟩⟩
/-- The clause about interleavings: two chunks and two `SEND`s, one of which fails. -/
theorem witness_SendAndFeedAreIndependent_lists :
    (∀ i ∈ ([.feed [1], .sendReboot, .feed [2], .sendCpuCardRequest []] : List Instr),
      isSend i = true ∨ ∃ c, i = .feed c) ∧
    (∃ a, runAll (([.feed [1], .sendReboot, .feed [2], .sendCpuCardRequest []] : List Instr).filter isSend) State.reset
      = .next a) ∧
    (∃ b, runAll (([.feed [1], .sendReboot, .feed [2], .sendCpuCardRequest []] : List Instr).filter (fun i => !isSend i))
      State.reset = .next b) :=
  ⟨by simp [isSend], ⟨_, rfl⟩, ⟨_, rfl⟩⟩
theorem witness_FeedCompletesInAWait :
    (arrival (.feed frameA) = some frameA ∧ (Instr.feed frameA).wellFormed = true ∧ Admits State.reset frameA.length) ∧
    (arrival (.rxFrame 0x06 [] 0x01 0x95 0x16) = some frameA ∧ (Instr.rxFrame 0x06 [] 0x01 0x95 0x16).wellFormed = true) ∧
    (arrival .rxResyncMark = some [0x16, 0xFE, 0xFE, 0xFE, 0x68, 0x26] ∧ Instr.rxResyncMark.wellFormed = true) :=
  ⟨⟨rfl, rfl, admits_reset _⟩, ⟨rfl, rfl⟩, rfl, rfl⟩
/-- Exactly 10 bytes, and none. -/
theorem witness_ShortBufferWaits :
    (Admits (holding [1, 2, 3, 4]) 6 ∧ (holding [1, 2, 3, 4]).rxbuf.length + 6 ≤ 10) ∧
    (Admits State.reset 0 ∧ State.reset.rxbuf.length + 0 ≤ 10) :=
  ⟨⟨admits_holding _ _, by decide⟩, admits_reset _, by decide⟩
/-- 11 bytes with `L = 1`: one byte short. -/
theorem witness_IncompleteFrameWaits :
    Admits State.reset ([0xFE, 0xFE, 0xFE, 0x68, 0x26, 6, 0, 1, 0, 0, 0] : Bytes).length ∧
    11 ≤ (State.reset.rxbuf ++ [0xFE, 0xFE, 0xFE, 0x68, 0x26, 6, 0, 1, 0, 0, 0]).length ∧
    HasHeader (State.reset.rxbuf ++ [0xFE, 0xFE, 0xFE, 0x68, 0x26, 6, 0, 1, 0, 0, 0]) ∧
    (State.reset.rxbuf ++ [0xFE, 0xFE, 0xFE, 0x68, 0x26, 6, 0, 1, 0, 0, 0]).length
      < 11 + claimedLength (State.reset.rxbuf ++ [0xFE, 0xFE, 0xFE, 0x68, 0x26, 6, 0, 1, 0, 0, 0]) :=
  ⟨admits_reset _, by decide⟩
/-- Both clauses: the checksum right (95) and wrong (00); the frame's first bytes in the buffer already. -/
theorem witness_CompleteFrameIsConsumed :
    (Admits (holding (frameA.take 4)) (frameA.drop 4 ++ [7, 7]).length ∧ ([] : Bytes).length ≤ 65535 ∧
      (holding (frameA.take 4)).rxbuf ++ (frameA.drop 4 ++ [7, 7]) = rxBytes 0x06 [] 0x01 0x95 0x16 ++ [7, 7] ∧
      (0x95 : Byte) = rxChecksum 0x06 [] 0x01) ∧
    (Admits State.reset 11 ∧
      State.reset.rxbuf ++ [0xFE, 0xFE, 0xFE, 0x68, 0x26, 6, 0, 0, 1, 0, 0x16] = rxBytes 0x06 [] 0x01 0x00 0x16 ++ [] ∧
      (0x00 : Byte) ≠ rxChecksum 0x06 [] 0x01) :=
  ⟨⟨admits_holding _ _, by decide⟩, admits_reset _, by decide⟩
theorem witness_BadTerminatorKeepsItsByte :
    Admits State.reset (badA ++ frameB).length ∧ ([] : Bytes).length ≤ 65535 ∧ (0x00 : Byte) ≠ 0x16 ∧
    State.reset.rxbuf ++ (badA ++ frameB) = rxBytes 0x06 [] 0x01 0x95 0x00 ++ frameB ∧
    frameB = packIn 0x22 [0x11, 0x22] 0x02 ∧ ∀ k, ¬ MarkAt (0x00 :: frameB) k :=
  ⟨admits_reset _, by decide, by decide, by decide, by decide, findMark_eq_none.mp (by decide)⟩
/-- The mark at index 1, and at index 0. -/
theorem witness_ResyncDropsThroughTheFirstMark :
    (Admits State.reset ([0x00, 0x16] ++ frameA).length ∧ Admits State.reset (0x16 :: frameA).length) ∧
    (11 ≤ (State.reset.rxbuf ++ ([0x00, 0x16] ++ frameA)).length ∧ ¬ HasHeader (State.reset.rxbuf ++ ([0x00, 0x16] ++ frameA)) ∧
      MarkAt (State.reset.rxbuf ++ ([0x00, 0x16] ++ frameA)) 1 ∧
      ∀ j < 1, ¬ MarkAt (State.reset.rxbuf ++ ([0x00, 0x16] ++ frameA)) j) ∧
    (11 ≤ (State.reset.rxbuf ++ (0x16 :: frameA)).length ∧ ¬ HasHeader (State.reset.rxbuf ++ (0x16 :: frameA)) ∧
      MarkAt (State.reset.rxbuf ++ (0x16 :: frameA)) 0 ∧ ∀ j < 0, ¬ MarkAt (State.reset.rxbuf ++ (0x16 :: frameA)) j) :=
  ⟨⟨admits_reset _, admits_reset _⟩, by decide⟩
theorem witness_NoMarkKeepsTheBuffer :
    (Admits State.reset (List.replicate 11 (0 : Byte)).length ∧
      11 ≤ (State.reset.rxbuf ++ List.replicate 11 0).length ∧ ¬ HasHeader (State.reset.rxbuf ++ List.replicate 11 0) ∧
      ∀ k, ¬ MarkAt (State.reset.rxbuf ++ List.replicate 11 0) k) ∧
    (Admits (holding (List.replicate 5 0 ++ [0x16, 0xFE, 0xFE, 0xFE, 0x68])) 1 ∧
      5 ≤ (List.replicate 5 (0 : Byte)).length ∧
      ¬ HasHeader (List.replicate 5 0 ++ [0x16, 0xFE, 0xFE, 0xFE, 0x68]) ∧
      ∀ k, ¬ MarkAt (List.replicate 5 0 ++ [0x16, 0xFE, 0xFE, 0xFE, 0x68]) k) :=
  ⟨⟨admits_reset _, by decide, by decide, findMark_eq_none.mp (by decide)⟩,
    admits_holding _ _, by decide, by decide, findMark_eq_none.mp (by decide)⟩
theorem witness_FeedInClosedIsRejected :
    closedState.session = .closed ∧ (arrival (.feed []) = some [] ∧ (Instr.feed []).wellFormed = true) ∧
    (arrival (.rxFrame 0x06 [] 0x01 0x95 0x16) = some frameA ∧
      (Instr.rxFrame 0x06 [] 0x01 0x95 0x16).wellFormed = true) ∧
    (arrival .rxResyncMark = some [0x16, 0xFE, 0xFE, 0xFE, 0x68, 0x26] ∧ Instr.rxResyncMark.wellFormed = true) :=
  ⟨rfl, ⟨rfl, rfl⟩, ⟨rfl, rfl⟩, rfl, rfl⟩
/-- One byte past the capacity, by a chunk, by a frame and by a mark. -/
theorem witness_FeedPastCapacityIsRefused :
    ({ State.reset with bufCap := some 2, rxbuf := [1] }).session = .opened ∧
    (arrival (.feed [1, 2]) = some [1, 2] ∧ 2 < ([1] : Bytes).length + ([1, 2] : Bytes).length) ∧
    (arrival (.rxFrame 0x06 [] 0x01 0x95 0x16) = some frameA ∧ 11 < ([1] : Bytes).length + frameA.length) ∧
    6 < ([1] : Bytes).length + ([0x16, 0xFE, 0xFE, 0xFE, 0x68, 0x26] : Bytes).length :=
  ⟨rfl, ⟨rfl, by decide⟩, ⟨rfl, by decide⟩, by decide⟩
theorem witness_EmptyFeedChangesNothing :
    (Admits (holding (frameA.take 10)) 0 ∧ Waiting (holding (frameA.take 10)).rxbuf) ∧
    (Admits (holding (List.replicate 11 0)) 0 ∧ Waiting (holding (List.replicate 11 0)).rxbuf) :=
  ⟨⟨admits_holding _ _, Or.inl (by unfold WaitShort; decide)⟩, admits_holding _ _,
    Or.inr (Or.inr ⟨by decide, by decide, findMark_eq_none.mp (by decide)⟩)⟩
theorem witness_ChunkBoundariesDoNotMatter :
    (holding [0xFE]).session = .opened ∧ (holding [0xFE]).bufCap = none ∧ Waiting (holding [0xFE]).rxbuf :=
  ⟨rfl, rfl, Or.inl (by unfold WaitShort; decide)⟩
theorem witness_BackToBackFramesAreAllEmitted :
    State.reset.rxbuf = [] ∧
    Admits State.reset ([(0x06, [], 0x01), (0x22, [0x11, 0x22], 0x02)].flatMap
      (fun f : Byte × Bytes × Byte => packIn f.1 f.2.1 f.2.2)).length ∧
    ∀ f ∈ ([(0x06, [], 0x01), (0x22, [0x11, 0x22], 0x02)] : List (Byte × Bytes × Byte)), f.2.1.length ≤ 65535 :=
  ⟨rfl, admits_reset _, by decide⟩
/-- Without a payload, and with one. -/
theorem witness_LoopbackDecodesNothing :
    State.reset.rxbuf = [] ∧ (([] : Bytes).length ≤ 65535 ∧ ([0x16, 0xFE] : Bytes).length ≤ 65535) ∧
    (∀ k, ¬ MarkAt (txFrame 0x06 [] 0x01) k) ∧
    (∀ k, ¬ MarkAt (txFrame 0x22 [0x16, 0xFE] 0x05) k) ∧ Admits State.reset 10 ∧ Admits State.reset 12 :=
  ⟨rfl, by decide, findMark_eq_none.mp (by decide), findMark_eq_none.mp (by decide), admits_reset _, admits_reset _⟩
theorem witness_FrameBehindATerminatorIsFound :
    Admits State.reset ([0x00] ++ [0x16] ++ packIn 0x06 [] 0x01).length ∧ ([] : Bytes).length ≤ 65535 ∧
    State.reset.rxbuf = [] ∧ ¬ HasHeader ([0x00] ++ [0x16] ++ packIn 0x06 [] 0x01) ∧
    ∀ k < ([0x00] : Bytes).length, ¬ MarkAt ([0x00] ++ [0x16] ++ packIn 0x06 [] 0x01) k :=
  ⟨admits_reset _, by decide⟩
theorem witness_OpcodeAndSequenceAreNotChecked :
    State.reset.rxbuf = [] ∧ ([] : Bytes).length ≤ 65535 ∧ Admits State.reset (11 + ([] : Bytes).length) :=
  ⟨rfl, by decide, admits_reset _⟩
/-- For each of the three outcomes. -/
theorem witness_RxFrameAloneGetsOneEvent :
    State.reset.rxbuf = [] ∧ Admits State.reset (11 + ([] : Bytes).length) ∧ ([] : Bytes).length ≤ 65535 ∧ (0x00 : Byte) ≠ 0x16 ∧
    (0x95 : Byte) = rxChecksum 0x06 [] 0x01 ∧ (0x94 : Byte) ≠ rxChecksum 0x06 [] 0x01 :=
  ⟨rfl, admits_reset _, by decide⟩
/-- Exactly five bytes of noise. -/
theorem witness_ResyncMarkLeavesAHeader :
    Admits (holding [0, 0, 0, 0, 0]) 6 ∧ 5 ≤ (holding [0, 0, 0, 0, 0]).rxbuf.length ∧
    ¬ HasHeader (holding [0, 0, 0, 0, 0]).rxbuf ∧
    ∀ k < (holding [0, 0, 0, 0, 0]).rxbuf.length,
      ¬ MarkAt ((holding [0, 0, 0, 0, 0]).rxbuf ++ [0x16, 0xFE, 0xFE, 0xFE, 0x68, 0x26]) k :=
  ⟨admits_holding _ _, by decide⟩
theorem witness_ArrivalRowsAreFeeds : ([0x11, 0x22] : Bytes).length ≤ 65535 := by decide
/-- For each kind of status: a transaction that has it. -/
theorem witness_StatusesByTransaction :
    (∃ t, exec .close closedState = .next t ∧ t.result = some .ok) ∧
    (∃ t, exec (.sendM1ReadContentByKey 256 0) State.reset = .next t ∧
      t.result = some (.raised (.validation .blockRange)) ∧ .blockRange ∈ reasonsOf .m1ReadContentByKey) ∧
    (∃ t, exec (.sendCpuGeneralCommand []) State.reset = .next t ∧ t.result = some (.raised .notImplemented)) ∧
    (∃ t, exec .rxResyncMark closedState = .next t ∧ t.result = some (.raised .closed)) :=
  ⟨⟨_, rfl, rfl⟩, ⟨_, rfl, rfl, by decide⟩, ⟨_, rfl, rfl⟩, ⟨_, rfl, rfl⟩⟩
/-- A sound state other than reset, and a step from it that completes. -/
theorem witness_EveryStepKeepsSound :
    Sound (present [0x05] (holding [0xFE])) ∧ ∃ t, step (present [0x05] (holding [0xFE])) = .next t :=
  ⟨{ waiting := Or.inl (by unfold WaitShort; decide)
     closedHoldsNothing := fun h => by cases h
     withinCapacity := fun _ h => by cases h
     framesOut := fun _ h => by cases h }, _, rfl⟩

end Sys2Proof.Tests
end

section
/-! PROOF. The sequence counter `SEQ` (10_state.md R12): who writes it, and that the receive path does not read it. -/

namespace Sys2Proof.Machine

open Safety

/-- The third byte from the end of a TX frame is its sequence byte (R34). -/
theorem txFrame_sequenceByte (op : Byte) (p : Bytes) (q : Byte) :
    (txFrame op p q)[(txFrame op p q).length - 3]? = some q := by
  have place : (txFrame op p q).length - 3 = 7 + p.length := by
    rw [txFrame_length]
    omega
  rw [place]
  simp [txFrame, Nat.add_comm 7]

/-- A chunk's effect does not read `SEQ` (R12, R30). -/
theorem feedChunk_seq (c : Bytes) (s : State) (v : Byte) :
    feedChunk c { s with seq := v } = mapNext (fun t => { t with seq := v }) (feedChunk c s) := by
  have all := feedChunk_transmitPath c s v s.txout s.result
  rcases feedChunk_cases c s with ⟨-, e⟩ | ⟨-, -, e⟩ | ⟨-, k, es, -, -, e⟩ <;> rw [e] at all ⊢ <;> exact all

/-- A `SEND` that completes hands over one frame with the next `SEQ` as its sequence byte (R55), or ends in a status and
leaves `SEQ` (R56). -/
theorem exec_send_seq {i : Instr} {s t : State} (send : isSend i = true) (run : exec i s = .next t) :
    (∃ f, t.result = some (.okFrame f) ∧ t.seq = s.seq + 1 ∧ f[f.length - 3]? = some t.seq) ∨
    ((∃ st, t.result = some (.raised st)) ∧ t.seq = s.seq) := by
  rcases exec_send send with ⟨-, eq⟩ | ⟨-, c, -, few, eq⟩ <;> rw [eq] at run
  · cases run
  · rcases sendCommand_cases c few s with ⟨-, e⟩ | ⟨-, st, -, e⟩ | ⟨-, p, -, -, e⟩ <;> rw [e] at run <;> cases run
    · exact Or.inr ⟨⟨.closed, rfl⟩, rfl⟩
    · exact Or.inr ⟨⟨st, rfl⟩, rfl⟩
    · exact Or.inl ⟨_, rfl, rfl, txFrame_sequenceByte _ p _⟩

/-- What is neither a `SEND` nor `RESET` leaves `SEQ` (R12). -/
theorem exec_seq_of_not_send {i : Instr} {s t : State} (notSend : isSend i = false) (notReset : i ≠ .reset)
    (run : exec i s = .next t) : t.seq = s.seq := by
  have ends {u : State} (e : exec i s = .next u) (kept : u.seq = s.seq) : t.seq = s.seq := by
    obtain rfl := Host.Outcome.next.inj (run.symm.trans e)
    exact kept
  rcases exec_cases i s with ⟨r, refused⟩ | ⟨send, -⟩ | ⟨send, -⟩ | ⟨send, -⟩ | ⟨op, p, q, -, -, pack⟩ |
    ⟨b, m, n, -, -, -, sum⟩ | ⟨c, -, -, rejected⟩ | ⟨c, k, es, -, -, -, -, pass⟩ | ⟨-, close⟩ | ⟨reset, -⟩
  · exact nomatch run.symm.trans refused
  · exact absurd (notSend.symm.trans send) Bool.false_ne_true
  · exact absurd (notSend.symm.trans send) Bool.false_ne_true
  · exact absurd (notSend.symm.trans send) Bool.false_ne_true
  · exact ends pack (finish_seq _ s)
  · exact ends sum (finish_seq _ s)
  · exact ends rejected (finish_seq _ s)
  · exact ends pass (receive_seq _ es s)
  · exact ends close (endSession_seq s)
  · exact absurd reset notReset

/-- What reaches the decoder does the same whatever `SEQ` is (R12, R30). -/
theorem exec_arrival_seq {i : Instr} (arrives : (arrival i).isSome = true) (s : State) (v : Byte) :
    exec i { s with seq := v } = mapNext (fun t => { t with seq := v }) (exec i s) := by
  obtain ⟨c, chunk⟩ := Option.isSome_iff_exists.mp arrives
  rcases exec_arrival chunk with ⟨-, eq⟩ | ⟨-, eq⟩ <;> rw [eq, eq]
  · rfl
  · exact feedChunk_seq c s v

/-- Settles O29: `RESET` is one equation, a `SEND` is its command, and every other case of `exec` keeps `SEQ`; the receive
path goes through `feedChunk`, which does not read it. -/
theorem seqIsTheSendersAlone : Obligations.SeqIsTheSendersAlone := by
  refine ⟨fun i s t run => ⟨?_, fun send => exec_send_seq send run,
    fun notSend notReset => exec_seq_of_not_send notSend notReset run⟩, fun i s v arrives => exec_arrival_seq arrives s v⟩
  rintro rfl
  cases run
  exact startSession_seq s

end Sys2Proof.Machine
end

section
/-! PROOF. The independence of the two paths (20_memory.md R30): what each leaves alone, what neither reads of the other,
and the interleavings of their transactions. -/

namespace Sys2Proof.Machine

open Safety

/-! ### What one path leaves to the other -/

/-- A `SEND` writes `SEQ`, the frames and its result alone. -/
theorem exec_send_frame {i : Instr} {s t : State} (send : isSend i = true) (run : exec i s = .next t) :
    t = { s with seq := t.seq, txout := t.txout, result := t.result } := by
  rcases exec_send send with ⟨-, eq⟩ | ⟨-, c, -, few, eq⟩ <;> rw [eq] at run
  · cases run
  · rcases sendCommand_cases c few s with ⟨-, e⟩ | ⟨-, st, -, e⟩ | ⟨-, p, -, -, e⟩ <;> rw [e] at run <;> cases run <;> rfl

/-- A chunk writes `RXBUF`, the events and its result alone. -/
theorem feedChunk_frame {c : Bytes} {s u : State} (run : feedChunk c s = .next u) :
    u = { s with rxbuf := u.rxbuf, rxout := u.rxout, result := u.result } := by
  rcases feedChunk_cases c s with ⟨-, e⟩ | ⟨-, -, e⟩ | ⟨-, k, es, -, -, e⟩ <;> rw [e] at run <;> cases run <;> rfl

/-- A `SEND` reads neither `RXBUF` nor the events, nor the last result (R30, R20). -/
theorem exec_send_receivePath {i : Instr} (send : isSend i = true) (s : State) (b : Bytes) (es : List Event)
    (r : Option Result) :
    exec i { s with rxbuf := b, rxout := es, result := r }
      = mapNext (fun t => { t with rxbuf := b, rxout := es }) (exec i s) := by
  rcases exec_send send with ⟨-, eq⟩ | ⟨-, c, -, few, eq⟩ <;> rw [eq, eq]
  · rfl
  · exact sendCommand_receivePath c few s b es r

/-- A `SEND` does not read `RXBUF` (R30). -/
theorem exec_send_rxbuf {i : Instr} (send : isSend i = true) (s : State) (b : Bytes) :
    exec i { s with rxbuf := b } = mapNext (fun t => { t with rxbuf := b }) (exec i s) := by
  rcases exec_send send with ⟨-, eq⟩ | ⟨-, c, -, few, eq⟩ <;> rw [eq, eq]
  · rfl
  · exact sendCommand_rxbuf c few s b

/-! ### One transaction of each path -/

/-- A `FEED` after a `SEND`: what it does before it, on the transmit path the `SEND` left. -/
theorem feedChunk_after_send {i : Instr} {c : Bytes} {s t u : State} (send : isSend i = true)
    (sends : exec i s = .next t) (feeds : feedChunk c s = .next u) :
    feedChunk c t = .next { u with seq := t.seq, txout := t.txout } := by
  have reads := feedChunk_transmitPath c s t.seq t.txout t.result
  rwa [← exec_send_frame send sends, feeds] at reads

/-- A `SEND` after a `FEED`: what it does before it, on the receive path the `FEED` left. -/
theorem exec_send_after_feed {i : Instr} {c : Bytes} {s t u : State} (send : isSend i = true)
    (sends : exec i s = .next t) (feeds : feedChunk c s = .next u) :
    exec i u = .next { t with rxbuf := u.rxbuf, rxout := u.rxout } := by
  have reads := exec_send_receivePath send s u.rxbuf u.rxout u.result
  rwa [← feedChunk_frame feeds, sends] at reads

/-! ### Runs, one transaction at a time -/

theorem runAll_cons {i : Instr} {is : List Instr} {s t : State} (run : exec i s = .next t) :
    runAll (i :: is) s = runAll is t := by
  simp [runAll, run]

theorem runAll_cons_next {i : Instr} {is : List Instr} {s t : State} (run : runAll (i :: is) s = .next t) :
    ∃ s', exec i s = .next s' ∧ runAll is s' = .next t := by
  cases first : exec i s with
  | next s' => exact ⟨s', rfl, runAll_cons first ▸ run⟩
  | fault f => simp [runAll, first] at run
  | refused r => simp [runAll, first] at run

theorem pathResults_cons_on {path : Instr → Bool} {i : Instr} {s t : State} (on : path i = true)
    (run : exec i s = .next t) (is : List Instr) :
    pathResults path (i :: is) s = t.result :: pathResults path is t := by
  simp [pathResults, run, on]

theorem pathResults_cons_off {path : Instr → Bool} {i : Instr} {s t : State} (off : path i = false)
    (run : exec i s = .next t) (is : List Instr) :
    pathResults path (i :: is) s = pathResults path is t := by
  simp [pathResults, run, off]

/-! ### Interleavings -/

/-- `s` with the transmit path of `x`, the receive path of `y`, and the result `r`. -/
def joinPaths (s x y : State) (r : Option Result) : State :=
  { s with seq := x.seq, txout := x.txout, rxbuf := y.rxbuf, rxout := y.rxout, result := r }

/-- `x` differs from `s` at most in what the two paths write. -/
def SameOffPaths (s x : State) : Prop := x.session = s.session ∧ x.bufCap = s.bufCap ∧ x.pending = s.pending

theorem SameOffPaths.refl (s : State) : SameOffPaths s s := ⟨rfl, rfl, rfl⟩

theorem SameOffPaths.send {i : Instr} {s x x' : State} (same : SameOffPaths s x) (send : isSend i = true)
    (run : exec i x = .next x') : SameOffPaths s x' := by
  rw [exec_send_frame send run]
  exact same

theorem SameOffPaths.feed {c : Bytes} {s y y' : State} (same : SameOffPaths s y) (run : feedChunk c y = .next y') :
    SameOffPaths s y' := by
  rw [feedChunk_frame run]
  exact same

theorem joinPaths_eq_transmit {s x : State} (same : SameOffPaths s x) (y : State) (r : Option Result) :
    joinPaths s x y r = { x with rxbuf := y.rxbuf, rxout := y.rxout, result := r } := by
  obtain ⟨session, cap, pending⟩ := same
  rw [joinPaths, ← session, ← cap, ← pending]

theorem joinPaths_eq_receive {s y : State} (same : SameOffPaths s y) (x : State) (r : Option Result) :
    joinPaths s x y r = { y with seq := x.seq, txout := x.txout, result := r } := by
  obtain ⟨session, cap, pending⟩ := same
  rw [joinPaths, ← session, ← cap, ← pending]

/-- On joined paths a `SEND` does what it does on its own path. -/
theorem exec_send_joinPaths {i : Instr} {s x x' : State} (send : isSend i = true) (same : SameOffPaths s x)
    (run : exec i x = .next x') (y : State) (r : Option Result) :
    exec i (joinPaths s x y r) = .next (joinPaths s x' y x'.result) := by
  rw [joinPaths_eq_transmit same, exec_send_receivePath send, run, joinPaths_eq_transmit (same.send send run)]
  rfl

/-- On joined paths a `FEED` does what it does on its own path. -/
theorem feedChunk_joinPaths {c : Bytes} {s y y' : State} (same : SameOffPaths s y) (run : feedChunk c y = .next y')
    (x : State) (r : Option Result) :
    feedChunk c (joinPaths s x y r) = .next (joinPaths s x y' y'.result) := by
  rw [joinPaths_eq_receive same, feedChunk_transmitPath, run, joinPaths_eq_receive (same.feed run)]
  rfl

/-- An interleaving from joined paths: it ends in the joined ends of the two paths' own runs, and each transaction has the
result it has in its path's run. -/
theorem interleaving_joinPaths (s : State) {a b : State} (is : List Instr)
    (paths : ∀ i ∈ is, isSend i = true ∨ ∃ c, i = .feed c) {x y : State} (r : Option Result)
    (sameX : SameOffPaths s x) (sameY : SameOffPaths s y)
    (sends : runAll (is.filter isSend) x = .next a) (feeds : runAll (is.filter (fun i => !isSend i)) y = .next b) :
    (∃ r', runAll is (joinPaths s x y r) = .next (joinPaths s a b r')) ∧
    pathResults isSend is (joinPaths s x y r) = pathResults isSend (is.filter isSend) x ∧
    pathResults (fun i => !isSend i) is (joinPaths s x y r)
      = pathResults (fun i => !isSend i) (is.filter (fun i => !isSend i)) y := by
  induction is generalizing x y r with
  | nil =>
    cases sends
    cases feeds
    exact ⟨⟨r, rfl⟩, rfl, rfl⟩
  | cons i is ih =>
    obtain ⟨first, rest⟩ := List.forall_mem_cons.mp paths
    rcases first with send | ⟨c, rfl⟩
    · have off : (!isSend i) = false := by simp [send]
      rw [List.filter_cons_of_pos send] at sends ⊢
      rw [List.filter_cons_of_neg (by simp [send])] at feeds ⊢
      obtain ⟨x', run, sends⟩ := runAll_cons_next sends
      have joined := exec_send_joinPaths send sameX run y r
      rw [runAll_cons joined, pathResults_cons_on send joined, pathResults_cons_on send run,
        pathResults_cons_off off joined]
      obtain ⟨ends, sent, fed⟩ := ih rest x'.result (sameX.send send run) sameY sends feeds
      exact ⟨ends, congrArg (x'.result :: ·) sent, fed⟩
    · have kept : (.feed c :: is).filter (fun i => !isSend i) = .feed c :: is.filter (fun i => !isSend i) :=
        List.filter_cons_of_pos rfl
      rw [List.filter_cons_of_neg (by simp [isSend])] at sends ⊢
      rw [kept] at feeds ⊢
      obtain ⟨y', run, feeds⟩ := runAll_cons_next feeds
      have joined : exec (.feed c) (joinPaths s x y r) = .next (joinPaths s x y' y'.result) :=
        feedChunk_joinPaths sameY run x r
      rw [runAll_cons joined, pathResults_cons_off rfl joined, pathResults_cons_on rfl joined, pathResults_cons_on rfl run]
      obtain ⟨ends, sent, fed⟩ := ih rest y'.result sameX (sameY.feed run) sends feeds
      exact ⟨ends, sent, congrArg (y'.result :: ·) fed⟩

/-- Settles O35: neither path reads or writes the other's registers, so one transaction of each commutes, and an
interleaving from `s` is one from `s` joined with itself. -/
theorem sendAndFeedAreIndependent : Obligations.SendAndFeedAreIndependent :=
  ⟨fun _ _ _ _ _ send sends feeds => ⟨feedChunk_after_send send sends feeds, exec_send_after_feed send sends feeds⟩,
    feedChunk_seq,
    fun _ s b send => exec_send_rxbuf send s b,
    fun is s _ _ paths sends feeds =>
      interleaving_joinPaths s is paths s.result (SameOffPaths.refl s) (SameOffPaths.refl s) sends feeds⟩

end Sys2Proof.Machine
end

section
/-! PROOF. The frame encoder's `PACK` (41_frame_encoder.md R50, R52). -/

namespace Sys2Proof.Machine

open Safety

/-- `PACK` on a payload that fits answers with the frame of R34, in every state (R52). -/
theorem execPack_of_le {op : Byte} {p : Bytes} {q : Byte} (fits : p.length ≤ 65535) (s : State) :
    execPack op p q s = answer (.okFrame (txFrame op p q)) s := by
  rw [execPack, packFrame_of_le fits]

/-- Settles O8: `packFrame` gives the table's frame on a payload that fits, and `finish` writes the result alone. -/
theorem packBuildsTheTxFrame : Obligations.PackBuildsTheTxFrame := by
  intro s op p q fits
  calc exec (.pack op p q) s = execPack op p q s := rfl
    _ = answer (.okFrame (txFrame op p q)) s := execPack_of_le fits s
    _ = .next (withResult s (.okFrame (txFrame op p q))) := rfl

end Sys2Proof.Machine
end

section
/-! PROOF. The catalog's frames for passwords and memory blocks, with their checks in order (42_commands.md R64 to R68). -/

namespace Sys2Proof.Machine

open Safety

/-! ### A `SEND` in an open session -/

/-- How a `SEND` of the opcode `op` ends in an open session, by what its builder gives (R54 to R56). -/
def commandEnd (op : Byte) (s : State) : Except Status Bytes → Answer
  | .error st => .next (raised s st)
  | .ok p     => .next (sent s (txFrame op p (s.seq + 1)))

theorem sendCommand_opened {c : Command} {s : State} (opened : s.session = .opened) (few : fewGroups c) :
    sendCommand c s = commandEnd (opcode (commandOperation c)) s (buildPayload c) := by
  cases built : buildPayload c with
  | error st => exact sendCommand_error opened built
  | ok p => exact sendCommand_ok opened few built

theorem commandEnd_ok (op : Byte) (s : State) (p : Bytes) :
    commandEnd op s (.ok p) = .next (sent s (txFrame op p (s.seq + 1))) := rfl

/-! ### The checks, in the order in which they stand (R104) -/

theorem commandEnd_checkBlock (op : Byte) (s : State) (block : Nat) (next : Except Status Bytes) :
    commandEnd op s (checkBlock block next)
      = if 255 < block then .next (raised s (.validation .blockRange)) else commandEnd op s next :=
  apply_ite (commandEnd op s) _ _ _

theorem commandEnd_checkPassword (op : Byte) (s : State) (password : Bytes) (next : Except Status Bytes) :
    commandEnd op s (checkPassword password next)
      = if password.length ≠ 6 then .next (raised s (.validation .passwordLength)) else commandEnd op s next :=
  apply_ite (commandEnd op s) _ _ _

theorem commandEnd_checkContent (op : Byte) (s : State) (content : Bytes) (next : Except Status Bytes) :
    commandEnd op s (checkContent content next)
      = if content.length ≠ 16 then .next (raised s (.validation .contentLength)) else commandEnd op s next :=
  apply_ite (commandEnd op s) _ _ _

/-! ### The password list -/

/-- Groups in their types become as many typed groups with the same bytes (R64). -/
theorem asGroups_of_wellFormed {gs : List GroupArg} (typed : groupsWellFormed (some gs) = true) :
    ∃ pgs, asGroups (some gs) = some (some pgs) ∧ pgs.length = gs.length ∧
      pgs.flatMap groupBytes
        = gs.flatMap (fun g => [BitVec.ofInt 8 g.block, BitVec.ofInt 8 g.passwordType] ++ g.password) := by
  have both : gs.length ≤ 255 ∧ gs.all GroupArg.wellFormed = true := by simpa [groupsWellFormed] using typed
  obtain ⟨few, all⟩ := both
  obtain ⟨pgs, mapped⟩ := Option.isSome_iff_exists.mp ((mapM_asGroup_isSome gs).trans all)
  exact ⟨pgs, by simp [asGroups, few, mapped], mapM_asGroup_some mapped⟩

theorem buildPayload_groups {pgs : List PasswordGroup} (some_group : pgs ≠ []) :
    buildPayload (.m1DownloadPasswordList (some pgs)) = .ok (BitVec.ofNat 8 pgs.length :: pgs.flatMap groupBytes) := by
  cases pgs with
  | nil => exact absurd rfl some_group
  | cons g pgs => rfl

/-- m1DownloadPasswordList in an open session is its builder on the typed groups. -/
theorem exec_sendM1DownloadPasswordList {gs : Option (List GroupArg)} {pgs : Option (List PasswordGroup)} {s : State}
    (opened : s.session = .opened) (typed : asGroups gs = some pgs) :
    exec (.sendM1DownloadPasswordList gs) s = commandEnd 0x21 s (buildPayload (.m1DownloadPasswordList pgs)) := by
  have named : m1DownloadPasswordListCommand gs = some (.m1DownloadPasswordList pgs) := by
    rw [m1DownloadPasswordListCommand, typed, Option.map_some]
  calc exec (.sendM1DownloadPasswordList gs) s = sendTyped (m1DownloadPasswordListCommand gs) s := rfl
    _ = sendCommand (.m1DownloadPasswordList pgs) s := by rw [named, sendTyped]
    _ = commandEnd 0x21 s (buildPayload (.m1DownloadPasswordList pgs)) :=
      sendCommand_opened opened (m1DownloadPasswordListCommand_some named).2

/-- Settles O16: the typed groups have the count and the bytes of the given ones, and the builder's two empty cases raise. -/
theorem passwordListFrame : Obligations.PasswordListFrame := by
  intro s opened
  refine ⟨fun gs nonempty typed => ?_, exec_sendM1DownloadPasswordList (pgs := some []) opened rfl,
    exec_sendM1DownloadPasswordList (pgs := none) opened rfl⟩
  obtain ⟨pgs, as, count, bytes⟩ := asGroups_of_wellFormed typed
  have pgs_nonempty : pgs ≠ [] := List.ne_nil_of_length_pos (count ▸ List.length_pos_iff.mpr nonempty)
  rw [exec_sendM1DownloadPasswordList opened as, buildPayload_groups pgs_nonempty, count, bytes, commandEnd_ok]

/-! ### The block commands -/

/-- A block command of a natural block and a password type in an open session is its builder on them (R65 to R68). -/
theorem sendTyped_blockCommand {f : Nat → PwType → Command} {s : State} {block : Nat} {pt : Int} {t : PwType}
    (opened : s.session = .opened) (typed : asPwType pt = some t) (few : fewGroups (f block t)) :
    sendTyped ((asNat block).bind fun b => (asPwType pt).bind fun p => some (f b p)) s
      = commandEnd (opcode (commandOperation (f block t))) s (buildPayload (f block t)) := by
  rw [asNat_natCast, typed]
  exact sendCommand_opened opened few

/-- Settles O17: the builder checks the block alone. -/
theorem readByKeyFrame : Obligations.ReadByKeyFrame := by
  intro s block pt opened range
  obtain ⟨t, typed, num⟩ := exists_asPwType range
  calc exec (.sendM1ReadContentByKey block pt) s
    _ = commandEnd 0x22 s (checkBlock block (.ok (blockAndType block t))) :=
      sendTyped_blockCommand (f := .m1ReadContentByKey) opened typed trivial
    _ = _ := by rw [commandEnd_checkBlock, commandEnd_ok, blockAndType, num]

/-- Settles O18: the builder checks the block, then the content. -/
theorem writeByKeyFrame : Obligations.WriteByKeyFrame := by
  intro s block pt content opened range
  obtain ⟨t, typed, num⟩ := exists_asPwType range
  calc exec (.sendM1WriteContentByKey block pt content) s
    _ = commandEnd 0x23 s (checkBlock block (checkContent content (.ok (blockAndType block t ++ content)))) :=
      sendTyped_blockCommand (f := (.m1WriteContentByKey · · content)) opened typed trivial
    _ = _ := by rw [commandEnd_checkBlock, commandEnd_checkContent, commandEnd_ok, blockAndType, num]

/-- Settles O19: the builder checks the block, then the password. -/
theorem readByCommandFrame : Obligations.ReadByCommandFrame := by
  intro s block pt password opened range
  obtain ⟨t, typed, num⟩ := exists_asPwType range
  calc exec (.sendM1ReadContentByCommand block pt password) s
    _ = commandEnd 0x24 s (checkBlock block (checkPassword password (.ok (blockAndType block t ++ password)))) :=
      sendTyped_blockCommand (f := (.m1ReadContentByCommand · · password)) opened typed trivial
    _ = _ := by rw [commandEnd_checkBlock, commandEnd_checkPassword, commandEnd_ok, blockAndType, num]

/-- Settles O20: the builder checks the block, then the password, then the content. -/
theorem writeByCommandFrame : Obligations.WriteByCommandFrame := by
  intro s block pt password content opened range
  obtain ⟨t, typed, num⟩ := exists_asPwType range
  calc exec (.sendM1WriteContentByCommand block pt password content) s
    _ = commandEnd 0x25 s (checkBlock block (checkPassword password (checkContent content
          (.ok (blockAndType block t ++ password ++ content))))) :=
      sendTyped_blockCommand (f := (.m1WriteContentByCommand · · password content)) opened typed trivial
    _ = _ := by
      rw [commandEnd_checkBlock, commandEnd_checkPassword, commandEnd_checkContent, commandEnd_ok, blockAndType, num]

end Sys2Proof.Machine
end

section
/-! PROOF. The frames a run of `SEND`s hands over carry the sequence values in order (42_commands.md R55). -/

namespace Sys2Proof.Machine

open Safety

/-! ### One `SEND` -/

/-- A `SEND` that completes raises a status and changes nothing else (R56), or hands over the frame of its catalog opcode
with the next sequence value (R55). -/
theorem exec_send_ends {i : Instr} {s t : State} (send : isSend i = true) (run : exec i s = .next t) :
    (∃ st, t = raised s st) ∨
    ∃ o p, sendOperation i = some o ∧ p.length ≤ 65535 ∧ t = sent s (txFrame (opcode o) p (s.seq + 1)) := by
  rcases exec_send send with ⟨-, eq⟩ | ⟨-, c, op, few, eq⟩ <;> rw [eq] at run
  · cases run
  · rcases sendCommand_cases c few s with ⟨-, e⟩ | ⟨-, st, -, e⟩ | ⟨-, p, -, fits, e⟩ <;> rw [e] at run <;> cases run
    · exact Or.inl ⟨.closed, rfl⟩
    · exact Or.inl ⟨st, rfl⟩
    · exact Or.inr ⟨commandOperation c, p, op, fits, rfl⟩

/-- A `SEND` that completes with OK takes the next sequence value (R55). -/
theorem exec_send_of_ok {i : Instr} {s t : State} (send : isSend i = true) (run : exec i s = .next t)
    (ok : ∀ st, t.result ≠ some (.raised st)) :
    ∃ o p, sendOperation i = some o ∧ p.length ≤ 65535 ∧ t = sent s (txFrame (opcode o) p (s.seq + 1)) := by
  rcases exec_send_ends send run with ⟨st, rfl⟩ | sends
  · exact absurd rfl (ok st)
  · exact sends

/-! ### Runs of `SEND`s -/

/-- What every transaction of a run keeps, the run keeps. -/
theorem runAll_keeps {P : State → Prop} {is : List Instr}
    (keeps : ∀ i ∈ is, ∀ s t, P s → exec i s = .next t → P t) {s t : State} (start : P s)
    (run : runAll is s = .next t) : P t := by
  induction is generalizing s with
  | nil =>
    cases run
    exact start
  | cons i is ih =>
    obtain ⟨first, rest⟩ := List.forall_mem_cons.mp keeps
    obtain ⟨s', head, tail⟩ := runAll_cons_next run
    exact ih rest (first s s' start head) tail

/-- The frames handed over are numbered from 1 on, mod 256, and `SEQ` is the last one's number. -/
structure FramesNumbered (s : State) : Prop where
  seq : s.seq = BitVec.ofNat 8 s.txout.length
  frames : ∀ (k : Nat) (f : Bytes), s.txout[k]? = some f → ∃ op p, f = txFrame op p (BitVec.ofNat 8 (k + 1))

theorem framesNumbered_reset : FramesNumbered State.reset where
  seq := rfl
  frames _ _ found := nomatch found

theorem framesNumbered_sent {s : State} (numbered : FramesNumbered s) (op : Byte) (p : Bytes) :
    FramesNumbered (sent s (txFrame op p (s.seq + 1))) := by
  have number : s.seq + 1 = BitVec.ofNat 8 (s.txout.length + 1) := by
    rw [numbered.seq, BitVec.ofNat_add]
    rfl
  refine ⟨by simpa [sent] using number, fun k f found => ?_⟩
  have place : (s.txout ++ [txFrame op p (s.seq + 1)])[k]? = some f := found
  rcases lt_trichotomy k s.txout.length with before | rfl | behind
  · rw [List.getElem?_append_left before] at place
    exact numbered.frames k f place
  · rw [List.getElem?_concat_length] at place
    exact ⟨op, p, by rw [← Option.some.inj place, number]⟩
  · rw [List.getElem?_eq_none (by simpa using behind)] at place
    cases place

theorem exec_send_keeps_framesNumbered {i : Instr} {s t : State} (send : isSend i = true) (numbered : FramesNumbered s)
    (run : exec i s = .next t) : FramesNumbered t := by
  rcases exec_send_ends send run with ⟨st, rfl⟩ | ⟨o, p, -, -, rfl⟩
  · exact ⟨numbered.seq, numbered.frames⟩
  · exact framesNumbered_sent numbered (opcode o) p

/-- Settles O27: a `SEND` is one command, which does not read `RXBUF`, and the numbering of the frames holds at reset and is
kept by every `SEND`. -/
theorem successfulSendTakesTheNextSequence : Obligations.SuccessfulSendTakesTheNextSequence :=
  ⟨fun _ _ _ => exec_send_of_ok,
    fun _ s b send => exec_send_rxbuf send s b,
    fun _ _ sends run => (runAll_keeps (fun i mem _ _ => exec_send_keeps_framesNumbered (sends i mem))
      framesNumbered_reset run).frames⟩

end Sys2Proof.Machine
end

section
/-! PROOF. The stream decoder's `FEED` (43_stream_decoder.md R72 to R84): the wait conditions, the frame at the front, and
what the decoder does not look at. -/

namespace Sys2Proof.Machine

open Safety

/-! ### A `FEED` is its pass -/

theorem exec_feed_pass {s : State} {c left : Bytes} {es : List Event} (admits : Admits s c.length)
    (pass : decodePass (s.rxbuf ++ c) = .ok (left, es)) : exec (.feed c) s = .next (received s left es) :=
  feedChunk_pass admits pass

/-- Where buffer and chunk together wait, a `FEED` keeps them and gives no event. -/
theorem exec_feed_waiting {s : State} {c : Bytes} (admits : Admits s c.length) (waits : Waiting (s.rxbuf ++ c)) :
    exec (.feed c) s = .next (received s (s.rxbuf ++ c) []) :=
  exec_feed_pass admits (decodePass_waiting waits)

/-- A buffer with fewer bytes than an admitted chunk would make admits the empty chunk. -/
theorem admits_shorter {s : State} {n : Nat} (admits : Admits s n) {b : Bytes} (shorter : b.length ≤ s.rxbuf.length + n) :
    Admits { s with rxbuf := b } 0 :=
  ⟨admits.1, fun cap bound => shorter.trans (admits.2 cap bound)⟩

/-- The pass that goes on over `b` is the `FEED` of the empty chunk on a buffer that holds `b`. -/
theorem exists_feed_empty {s : State} {n : Nat} (admits : Admits s n) {b : Bytes}
    (shorter : b.length ≤ s.rxbuf.length + n) :
    ∃ left es, decodePass b = .ok (left, es) ∧
      exec (.feed []) { s with rxbuf := b } = .next (received { s with rxbuf := b } left es) := by
  obtain ⟨k, es, pass, -⟩ := decodePass_ends b
  exact ⟨b.drop k, es, pass, exec_feed_pass (admits_shorter admits shorter) (by rwa [List.append_nil])⟩

/-! ### The waits -/

/-- Settles O37: buffer and chunk are in WAIT_SHORT. -/
theorem shortBufferWaits : Obligations.ShortBufferWaits := by
  intro s c admits short
  have waits : WaitShort (s.rxbuf ++ c) := by rwa [WaitShort, List.length_append]
  exact exec_feed_waiting admits (Or.inl waits)

/-- Settles O38: buffer and chunk are in WAIT_BODY. -/
theorem incompleteFrameWaits : Obligations.IncompleteFrameWaits :=
  fun _ _ admits long header body => exec_feed_waiting admits (Or.inr (Or.inl ⟨long, header, body⟩))

/-- The byte that completes a mark behind bytes without one makes it the lowest mark. -/
theorem markAt_completed {noise : Bytes} (noMark : ∀ k, ¬ MarkAt (noise ++ [0x16, 0xFE, 0xFE, 0xFE, 0x68]) k) :
    MarkAt (noise ++ [0x16, 0xFE, 0xFE, 0xFE, 0x68] ++ [0x26]) noise.length ∧
      ∀ j < noise.length, ¬ MarkAt (noise ++ [0x16, 0xFE, 0xFE, 0xFE, 0x68] ++ [0x26]) j := by
  refine ⟨by simp [MarkAt], fun j before mark => noMark j ?_⟩
  have inside : j + 6 ≤ (noise ++ [0x16, 0xFE, 0xFE, 0xFE, 0x68] : Bytes).length := by
    simp only [List.length_append, List.length_cons, List.length_nil]
    omega
  exact (MarkAt_append _ inside).mp mark

/-- Settles O42: without a mark buffer and chunk are in WAIT_RESYNC; a mark completed by one byte is the lowest, and the
header that it leaves is in WAIT_SHORT. -/
theorem noMarkKeepsTheBuffer : Obligations.NoMarkKeepsTheBuffer := by
  refine ⟨fun s c admits long header noMark => exec_feed_waiting admits (Or.inr (Or.inr ⟨long, header, noMark⟩)),
    fun s noise admits buffer fiveOrMore header noMark => exec_feed_pass admits ?_⟩
  rw [buffer] at header noMark ⊢
  obtain ⟨here, lowest⟩ := markAt_completed noMark
  have long : 11 ≤ (noise ++ [0x16, 0xFE, 0xFE, 0xFE, 0x68] ++ [0x26] : Bytes).length := by
    simp only [List.length_append, List.length_cons, List.length_nil]
    omega
  have headerLeft : (noise ++ [0x16, 0xFE, 0xFE, 0xFE, 0x68] ++ [0x26] : Bytes).drop (noise.length + 1)
      = [0xFE, 0xFE, 0xFE, 0x68, 0x26] := by
    simp
  have short : WaitShort [0xFE, 0xFE, 0xFE, 0x68, 0x26] := by simp [WaitShort]
  refine decodePass_mark long (fun h => header ((HasHeader_append _ (by simp)).mp h)) here lowest ?_
  rw [headerLeft]
  exact decodePass_waiting (Or.inl short)

/-! ### A frame at the front -/

/-- Settles O39: one iteration takes the frame with its event, and the pass over the bytes behind is that of an empty
chunk. -/
theorem completeFrameIsConsumed : Obligations.CompleteFrameIsConsumed := by
  intro s c op p q cs rest admits fits bytes
  have shorter : rest.length ≤ s.rxbuf.length + c.length := by
    rw [← List.length_append, bytes, List.length_append]
    omega
  obtain ⟨left, es, behind, goesOn⟩ := exists_feed_empty admits shorter
  refine ⟨left, es, goesOn, exec_feed_pass admits ?_⟩
  rw [bytes]
  exact decodePass_frame fits behind

/-- A pass over one well-formed RX frame emits its payload and leaves nothing (R77). -/
theorem decodePass_packIn (op : Byte) {p : Bytes} (q : Byte) (fits : p.length ≤ 65535) :
    decodePass (packIn op p q) = .ok ([], [.emit p]) := by
  have empty : decodePass [] = .ok ([], []) := decodePass_waiting (Or.inl (Nat.zero_le 10))
  simpa [packIn] using decodePass_frame (op := op) (q := q) (cs := rxChecksum op p q) fits empty

/-- Settles O50: a well-formed frame's pass is the same for every opcode and sequence byte, and no chunk's effect reads the
transmit path. -/
theorem opcodeAndSequenceAreNotChecked : Obligations.OpcodeAndSequenceAreNotChecked := by
  refine ⟨fun s op p q empty fits admits => ?_, fun c s v x => feedChunk_transmitPath c s v x s.result⟩
  have room : Admits s (packIn op p q).length := by rwa [packIn, rxBytes_length]
  refine exec_feed_pass room ?_
  rw [empty, List.nil_append]
  exact decodePass_packIn op q fits

end Sys2Proof.Machine
end

section
/-! PROOF. What reaches the decoder in a closed session (44_session.md R88). -/

namespace Sys2Proof.Machine

open Safety

/-- A well-formed arrival is its bytes at the decoder (R71). -/
theorem exec_arrival_of_wellFormed {i : Instr} {c : Bytes} (arrives : arrival i = some c) (wf : i.wellFormed = true)
    (s : State) : exec i s = feedChunk c s := by
  rcases exec_arrival arrives with ⟨ill, -⟩ | ⟨-, eq⟩
  · exact absurd wf (by simp [ill])
  · exact eq s

/-- Settles O43: the decoder asks for the session before it looks at the chunk, and each arrival row goes through it. -/
theorem feedInClosedIsRejected : Obligations.FeedInClosedIsRejected :=
  fun i c s arrives wf closed =>
    ⟨calc exec i s
        _ = feedChunk c s := exec_arrival_of_wellFormed arrives wf s
        _ = .next (raised s .closed) := feedChunk_closed c closed, rfl⟩

end Sys2Proof.Machine
end

section
/-! PROOF. Which statuses which transactions end in (60_exceptions.md R95 to R100), and NOT_IMPLEMENTED, which the CPU
operations alone raise (R97). -/

namespace Sys2Proof.Machine

open Safety

@[simp] theorem Result.status_raised (st : Status) : (Result.raised st).status = st := rfl

/-- Settles O57: every case of `exec` writes its result, and names the session and the transaction that its status asks for. -/
theorem statusesByTransaction : Obligations.StatusesByTransaction := by
  intro i s t run
  have ends {r : Result} {u : State} (e : exec i s = .next u) (writes : u.result = some r) : t.result = some r := by
    obtain rfl := Host.Outcome.next.inj (run.symm.trans e)
    exact writes
  rcases exec_cases i s with ⟨r, refused⟩ | ⟨send, closed, rejected⟩ | ⟨-, opened, st, why, raises⟩ |
    ⟨-, opened, o, p, -, -, sends⟩ | ⟨op, p, q, rfl, -, pack⟩ | ⟨b, m, n, rfl, -, -, sum⟩ | ⟨c, chunk, closed, rejected⟩ |
    ⟨c, k, es, -, ⟨opened, -⟩, -, -, pass⟩ | ⟨rfl, close⟩ | ⟨rfl, reset⟩
  · exact nomatch run.symm.trans refused
  · exact ⟨.raised .closed, ends rejected rfl, Or.inr (Or.inr (Or.inr ⟨rfl, closed, Or.inl send⟩))⟩
  · refine ⟨.raised st, ends raises rfl, Or.inr ?_⟩
    rcases why with ⟨o, operation, reason, mem, rfl⟩ | ⟨rfl, cpu⟩
    · exact Or.inl ⟨o, reason, rfl, opened, operation, mem⟩
    · exact Or.inr (Or.inl ⟨rfl, opened, cpu⟩)
  · exact ⟨.okFrame _, ends sends rfl, Or.inl ⟨rfl, Or.inl opened⟩⟩
  · exact ⟨.okFrame _, ends pack rfl, Or.inl ⟨rfl, Or.inr ⟨rfl, rfl⟩⟩⟩
  · exact ⟨.okValue _, ends sum rfl, Or.inl ⟨rfl, Or.inr ⟨rfl, rfl⟩⟩⟩
  · exact ⟨.raised .closed, ends rejected rfl,
      Or.inr (Or.inr (Or.inr ⟨rfl, closed, Or.inr (Option.isSome_of_eq_some chunk)⟩))⟩
  · exact ⟨.okEvents es, ends pass rfl, Or.inl ⟨rfl, Or.inl opened⟩⟩
  · exact ⟨.ok, ends close rfl, Or.inl ⟨rfl, Or.inr ⟨rfl, rfl⟩⟩⟩
  · exact ⟨.ok, ends reset rfl, Or.inl ⟨rfl, Or.inr ⟨rfl, rfl⟩⟩⟩

/-- `SEND` with selector 07 is the row of cpuCardRequest (R69). -/
theorem exec_send_cpuCardRequest (args : List Arg) (s : State) :
    exec (.send 0x07 args) s = exec (.sendCpuCardRequest args) s := rfl

/-- `SEND` with selector 08 is the row of cpuGeneralCommand (R70). -/
theorem exec_send_cpuGeneralCommand (args : List Arg) (s : State) :
    exec (.send 0x08 args) s = exec (.sendCpuGeneralCommand args) s := rfl

/-- Settles O21: the two CPU rows and their selectors are commands whose builders only raise NOT_IMPLEMENTED, and of the
statuses a transaction can have (O57) only theirs is NOT_IMPLEMENTED. -/
theorem notImplementedByCpuOperationsOnly : Obligations.NotImplementedByCpuOperationsOnly := by
  refine ⟨fun s args opened => ?_, fun i s t run result => ?_⟩
  · have card : exec (.sendCpuCardRequest args) s = .next (raised s .notImplemented) :=
      sendCommand_error (c := .cpuCardRequest) opened rfl
    have general : exec (.sendCpuGeneralCommand args) s = .next (raised s .notImplemented) :=
      sendCommand_error (c := .cpuGeneralCommand) opened rfl
    exact ⟨card, general, (exec_send_cpuCardRequest args s).trans card, (exec_send_cpuGeneralCommand args s).trans general⟩
  · obtain ⟨r, some_r, status⟩ := statusesByTransaction i s t run
    obtain rfl := Option.some.inj (result.symm.trans some_r)
    rw [Result.status_raised] at status
    rcases status with ⟨ok, -⟩ | ⟨o, reason, validation, -⟩ | ⟨-, -, cpu⟩ | ⟨closed, -⟩
    · cases ok
    · cases validation
    · exact cpu
    · cases closed

end Sys2Proof.Machine
end

section
/-! PROOF. The byte form of the transactions (30_encoding.md R45): each row reads back what it writes, and has one
spelling; and what a step takes. -/

namespace Sys2Proof

open Machine

/-! ### Reading a row behind its code -/

theorem decode_sendCode (o : Operation) (r : Bytes) : decode (sendCode o ++ r) = getSendOperands o r := by
  calc decode (sendCode o ++ r) = getSendRow (opcode o :: r) := rfl
    _ = getSendOperands o r := by simp [getSendRow, bind, Except.bind]

theorem decode_cpuCardRequest (r : Bytes) :
    decode (opcode .cpuCardRequest :: r)
      = (do let x ← getList getArg r; .ok (.sendCpuCardRequest x.1, x.2)) := rfl

theorem decode_cpuGeneralCommand (r : Bytes) :
    decode (opcode .cpuGeneralCommand :: r)
      = (do let x ← getList getArg r; .ok (.sendCpuGeneralCommand x.1, x.2)) := rfl

theorem decode_rxFrameBytes {op : Byte} {payload : Bytes} {seq cs t : Byte} (fits : payload.length ≤ maxPayload)
    (rest : Bytes) :
    decode (rxFrameBytes op payload seq cs t ++ rest) = .ok (.rxFrame op payload seq cs t, rest) := by
  have layout : rxFrameBytes op payload seq cs t ++ rest
      = hdrIn ++ (op :: hiByte (lengthField payload.length) :: loByte (lengthField payload.length) ::
          (payload ++ (seq :: cs :: t :: rest))) := by
    simp [rxFrameBytes, bigEndian]
  calc decode (rxFrameBytes op payload seq cs t ++ rest)
    _ = getRxFrame (op :: hiByte (lengthField payload.length) :: loByte (lengthField payload.length) ::
          (payload ++ (seq :: cs :: t :: rest))) := by rw [layout]; rfl
    _ = .ok (.rxFrame op payload seq cs t, rest) := by
      simp [getRxFrame, be16_lengthField fits, bind, Except.bind]

theorem getSend_putList (selector : Byte) (args : List Arg) (rest : Bytes) :
    getSend (selector :: putList putArg args ++ rest) = .ok (.send selector args, rest) := by
  simp [getSend, bind, Except.bind]

theorem getPack_putBytes (op : Byte) (payload : Bytes) (seq : Byte) (rest : Bytes) :
    getPack (op :: (putBytes payload ++ [seq]) ++ rest) = .ok (.pack op payload seq, rest) := by
  simp [getPack, bind, Except.bind]

theorem getSum_putBytes (bytes : Bytes) (start stop : Nat) (rest : Bytes) :
    getSum (putBytes bytes ++ putNat start ++ putNat stop ++ rest) = .ok (.sum bytes start stop, rest) := by
  simp [getSum, bind, Except.bind]

theorem getFeed_putBytes (chunk rest : Bytes) : getFeed (putBytes chunk ++ rest) = .ok (.feed chunk, rest) := by
  simp [getFeed, bind, Except.bind]

/-- Settles O4: the code of each row leads the decoder to the row's reader, which reads each operand back from its
writer. -/
theorem decodeOfEncode : Obligations.DecodeOfEncode := by
  intro i rest encodable
  cases i
  case sendReboot => exact decode_sendCode .reboot rest
  case sendHandshake => exact decode_sendCode .handshake rest
  case sendBeeperAndLed | sendCardSelectCancel | sendCardPending | sendM1CardTestRequest | sendM1DownloadPasswordList
      | sendM1ReadContentByKey | sendM1WriteContentByKey | sendM1ReadContentByCommand | sendM1WriteContentByCommand =>
    simp only [encode, List.append_assoc, decode_sendCode]
    simp [getSendOperands, bind, Except.bind]
  case sendCpuCardRequest args =>
    simp only [encode, List.cons_append, decode_cpuCardRequest, getArgs_putArgs]
    rfl
  case sendCpuGeneralCommand args =>
    simp only [encode, List.cons_append, decode_cpuGeneralCommand, getArgs_putArgs]
    rfl
  case rxFrame op payload seq cs t => exact decode_rxFrameBytes (by simpa [Instr.encodable] using encodable) rest
  case rxResyncMark => rfl
  case send selector args => exact getSend_putList selector args rest
  case pack op payload seq => exact getPack_putBytes op payload seq rest
  case sum bytes start stop => exact getSum_putBytes bytes start stop rest
  case feed chunk => exact getFeed_putBytes chunk rest
  case close => rfl
  case reset => rfl

/-! ### One spelling per row -/

theorem bind_eq_ok {α β : Type} {x : Except DecodeError α} {f : α → Except DecodeError β} {b : β} :
    (x >>= f) = .ok b ↔ ∃ a, x = .ok a ∧ f a = .ok b := by
  cases x with
  | error e => simp [bind, Except.bind]
  | ok a => simp [bind, Except.bind]

theorem getSendOperands_ok {o : Operation} {r rest : Bytes} {i : Instr} (h : getSendOperands o r = .ok (i, rest)) :
    sendCode o ++ r = encode i ++ rest ∧ i.encodable = true := by
  cases o <;> simp only [getSendOperands, bind_eq_ok, Prod.exists, Except.ok.injEq, Prod.mk.injEq] at h
  case reboot =>
    obtain ⟨rfl, rfl⟩ := h
    exact ⟨rfl, rfl⟩
  case handshake =>
    obtain ⟨rfl, rfl⟩ := h
    exact ⟨rfl, rfl⟩
  case beeperAndLed =>
    obtain ⟨bt, r₁, e₁, bc, r₂, e₂, lt, r₃, e₃, lf, r₄, e₄, rfl, rfl⟩ := h
    rw [getOptional_ok getInt_ok e₁, getOptional_ok getInt_ok e₂, getOptional_ok getInt_ok e₃,
      getOptional_ok getInt_ok e₄]
    exact ⟨by simp [encode], rfl⟩
  case cardSelectCancel =>
    obtain ⟨d, r₁, e₁, rfl, rfl⟩ := h
    rw [getInt_ok e₁]
    exact ⟨by simp [encode], rfl⟩
  case cardPending =>
    obtain ⟨d, r₁, e₁, rfl, rfl⟩ := h
    rw [getInt_ok e₁]
    exact ⟨by simp [encode], rfl⟩
  case m1CardTestRequest =>
    obtain ⟨t, r₁, e₁, rfl, rfl⟩ := h
    rw [getInt_ok e₁]
    exact ⟨by simp [encode], rfl⟩
  case m1DownloadPasswordList =>
    obtain ⟨gs, r₁, e₁, rfl, rfl⟩ := h
    rw [getOptional_ok (getList_ok getGroup_ok) e₁]
    exact ⟨by simp [encode], rfl⟩
  case m1ReadContentByKey =>
    obtain ⟨block, r₁, e₁, pt, r₂, e₂, rfl, rfl⟩ := h
    rw [getInt_ok e₁, getInt_ok e₂]
    exact ⟨by simp [encode], rfl⟩
  case m1WriteContentByKey =>
    obtain ⟨block, r₁, e₁, pt, r₂, e₂, content, r₃, e₃, rfl, rfl⟩ := h
    rw [getInt_ok e₁, getInt_ok e₂, getBytes_ok e₃]
    exact ⟨by simp [encode], rfl⟩
  case m1ReadContentByCommand =>
    obtain ⟨block, r₁, e₁, pt, r₂, e₂, password, r₃, e₃, rfl, rfl⟩ := h
    rw [getInt_ok e₁, getInt_ok e₂, getBytes_ok e₃]
    exact ⟨by simp [encode], rfl⟩
  case m1WriteContentByCommand =>
    obtain ⟨block, r₁, e₁, pt, r₂, e₂, password, r₃, e₃, content, r₄, e₄, rfl, rfl⟩ := h
    rw [getInt_ok e₁, getInt_ok e₂, getBytes_ok e₃, getBytes_ok e₄]
    exact ⟨by simp [encode], rfl⟩
  case cpuCardRequest => cases h
  case cpuGeneralCommand => cases h

theorem getSend_ok {r rest : Bytes} {i : Instr} (h : getSend r = .ok (i, rest)) :
    kindSend :: r = encode i ++ rest ∧ i.encodable = true := by
  simp only [getSend, bind_eq_ok, Prod.exists, Except.ok.injEq, Prod.mk.injEq] at h
  obtain ⟨selector, r₁, e₁, args, r₂, e₂, rfl, rfl⟩ := h
  rw [getByte_ok e₁, getList_ok getArg_ok e₂]
  exact ⟨by simp [encode], rfl⟩

theorem getPack_ok {r rest : Bytes} {i : Instr} (h : getPack r = .ok (i, rest)) :
    kindPack :: r = encode i ++ rest ∧ i.encodable = true := by
  simp only [getPack, bind_eq_ok, Prod.exists, Except.ok.injEq, Prod.mk.injEq] at h
  obtain ⟨op, r₁, e₁, payload, r₂, e₂, seq, r₃, e₃, rfl, rfl⟩ := h
  rw [getByte_ok e₁, getBytes_ok e₂, getByte_ok e₃]
  exact ⟨by simp [encode], rfl⟩

theorem getSum_ok {r rest : Bytes} {i : Instr} (h : getSum r = .ok (i, rest)) :
    kindSum :: r = encode i ++ rest ∧ i.encodable = true := by
  simp only [getSum, bind_eq_ok, Prod.exists, Except.ok.injEq, Prod.mk.injEq] at h
  obtain ⟨bytes, r₁, e₁, start, r₂, e₂, stop, r₃, e₃, rfl, rfl⟩ := h
  rw [getBytes_ok e₁, getNat_ok e₂, getNat_ok e₃]
  exact ⟨by simp [encode], rfl⟩

theorem getFeed_ok {r rest : Bytes} {i : Instr} (h : getFeed r = .ok (i, rest)) :
    kindFeed :: r = encode i ++ rest ∧ i.encodable = true := by
  simp only [getFeed, bind_eq_ok, Prod.exists, Except.ok.injEq, Prod.mk.injEq] at h
  obtain ⟨chunk, r₁, e₁, rfl, rfl⟩ := h
  rw [getBytes_ok e₁]
  exact ⟨by simp [encode], rfl⟩

/-- The length field of two bytes is their number's, so a payload of that length is spelled with these two (R43). -/
theorem lengthField_be16 (hi lo : Byte) : bigEndian (lengthField (be16 hi lo)) = [hi, lo] := by
  have high : hi.toNat < 256 := hi.isLt
  have low : lo.toNat < 256 := lo.isLt
  have fits : be16 hi lo ≤ 65535 := by
    simp only [be16]
    omega
  rw [bigEndian_lengthField fits]
  congr 1
  · apply BitVec.eq_of_toNat_eq
    simp only [Safety.highByte, be16, BitVec.toNat_ofNat]
    omega
  · congr 1
    apply BitVec.eq_of_toNat_eq
    simp only [Safety.lowByte, be16, BitVec.toNat_ofNat]
    omega

theorem getRxFrame_ok {r rest : Bytes} {i : Instr} (h : getRxFrame r = .ok (i, rest)) :
    hdrIn ++ r = encode i ++ rest ∧ i.encodable = true := by
  simp only [getRxFrame, bind_eq_ok, Prod.exists, Except.ok.injEq, Prod.mk.injEq] at h
  obtain ⟨op, r₁, e₁, hi, r₂, e₂, lo, r₃, e₃, payload, r₄, e₄, seq, r₅, e₅, cs, r₆, e₆, t, r₇, e₇, rfl, rfl⟩ := h
  obtain ⟨e₄, length⟩ := getExactly_ok e₄
  have fits : payload.length ≤ maxPayload := by
    have high : hi.toNat < 256 := hi.isLt
    have low : lo.toNat < 256 := lo.isLt
    simp only [length, be16, maxPayload]
    omega
  rw [getByte_ok e₁, getByte_ok e₂, getByte_ok e₃, e₄, getByte_ok e₅, getByte_ok e₆, getByte_ok e₇]
  exact ⟨by simp [encode, rxFrameBytes, length, lengthField_be16], by simpa [Instr.encodable] using fits⟩

theorem behind_eq_some {head bs r : Bytes} (h : behind head bs = some r) : bs = head ++ r := by
  unfold behind at h
  split at h
  next isHead =>
    obtain ⟨tail, rfl⟩ := List.isPrefixOf_iff_prefix.mp isHead
    simpa using h
  · cases h

theorem getSendRow_ok {r rest : Bytes} {i : Instr} (h : getSendRow r = .ok (i, rest)) :
    hdrOut ++ r = encode i ++ rest ∧ i.encodable = true := by
  obtain ⟨⟨op, r₁⟩, e₁, h⟩ := bind_eq_ok.mp h
  rcases found : operationOf op with _ | o <;> simp only [found] at h
  · cases h
  · rw [getByte_ok e₁, ← opcode_operationOf found]
    simpa [sendCode] using getSendOperands_ok h

theorem getWideRow_ok {bs rest : Bytes} {i : Instr} (h : getWideRow bs = .ok (i, rest)) :
    bs = encode i ++ rest ∧ i.encodable = true := by
  unfold getWideRow at h
  split at h
  next r header =>
    rw [behind_eq_some header]
    exact getRxFrame_ok h
  split at h
  next r header =>
    rw [behind_eq_some header]
    exact getSendRow_ok h
  split at h
  next r mark =>
    obtain ⟨rfl, rfl⟩ : Instr.rxResyncMark = i ∧ r = rest := by simpa using h
    exact ⟨behind_eq_some mark, rfl⟩
  · cases h

/-- Settles O5: the decoder's branches are the rows' readers, and each reader accepts only its writer's bytes. -/
theorem encodeOfDecode : Obligations.EncodeOfDecode := by
  intro bs i rest h
  cases bs with
  | nil => cases h
  | cons k r =>
    simp only [decode] at h
    split_ifs at h with isSend isPack isSum isFeed isClose isReset isCard isGeneral
    · exact isSend ▸ getSend_ok h
    · exact isPack ▸ getPack_ok h
    · exact isSum ▸ getSum_ok h
    · exact isFeed ▸ getFeed_ok h
    · obtain ⟨rfl, rfl⟩ : Instr.close = i ∧ r = rest := by simpa using h
      exact ⟨by rw [isClose]; rfl, rfl⟩
    · obtain ⟨rfl, rfl⟩ : Instr.reset = i ∧ r = rest := by simpa using h
      exact ⟨by rw [isReset]; rfl, rfl⟩
    · obtain ⟨⟨args, r₁⟩, read, h⟩ := bind_eq_ok.mp h
      obtain ⟨rfl, rfl⟩ : Instr.sendCpuCardRequest args = i ∧ r₁ = rest := by simpa using h
      rw [isCard, getList_ok getArg_ok read]
      exact ⟨rfl, rfl⟩
    · obtain ⟨⟨args, r₁⟩, read, h⟩ := bind_eq_ok.mp h
      obtain ⟨rfl, rfl⟩ : Instr.sendCpuGeneralCommand args = i ∧ r₁ = rest := by simpa using h
      rw [isGeneral, getList_ok getArg_ok read]
      exact ⟨rfl, rfl⟩
    · exact getWideRow_ok h

/-! ### Codes of the table -/

/-- Settles O3: each code written out is the encoding of its transaction, and decode gives that back (O4). -/
theorem tableCodesDecode : Obligations.TableCodesDecode :=
  ⟨decodeOfEncode (.send 0x06 []) [] rfl,
    decodeOfEncode (.pack 0x22 [0xFF, 0x00] 0x05) [] rfl,
    decodeOfEncode (.sum [0xA5] 0 1) [] rfl,
    decodeOfEncode (.feed [0x16]) [] rfl,
    decodeOfEncode .close [] rfl,
    decodeOfEncode .reset [] rfl,
    decodeOfEncode (.sendCpuCardRequest []) [] rfl,
    decodeOfEncode (.sendCpuGeneralCommand []) [] rfl,
    decodeOfEncode .sendReboot [] rfl,
    decodeOfEncode .sendHandshake [] rfl,
    decodeOfEncode (.rxFrame 0x22 [0x11, 0x22] 0x02 0xE7 0x16) [] rfl,
    decodeOfEncode .rxResyncMark [] rfl⟩

/-! ### A step -/

/-- Settles O1: the step takes the oldest transaction and runs what its bytes decode to. -/
theorem stepRunsTheDecodedTransaction : Obligations.StepRunsTheDecodedTransaction := by
  intro s b rest i presented decodes
  simp only [step, takeTransaction_of_cons presented, decodes]

/-- Settles O2: nothing is taken when nothing is presented, and bytes that do not decode are refused. -/
theorem stepWaitsOrRefusesUndecodable : Obligations.StepWaitsOrRefusesUndecodable := by
  refine ⟨fun s nothing => ?_, fun s b rest e presented undecodable => ?_⟩
  · simp only [step, takeTransaction_of_nil nothing]
  · simp only [step, takeTransaction_of_cons presented, undecodable]

end Sys2Proof
end

section
/-! PROOF. What the checksum unit's `SUM` does and its laws (40_checksum.md R47 to R49). -/

namespace Sys2Proof.Machine

open Safety

theorem execSum_of_inside {b : Bytes} {start stop : Nat} (ordered : start ≤ stop) (inside : stop ≤ b.length)
    (s : State) :
    execSum b start stop s = answer (.okValue (sumMod256 ((b.drop start).take (stop - start)))) s := by
  rw [execSum, if_pos ⟨ordered, inside⟩, sumRange_eq]

theorem execSum_of_outside {b : Bytes} {start stop : Nat} (outside : stop < start ∨ b.length < stop) (s : State) :
    execSum b start stop s = refuse .sumRange := by
  rw [execSum, if_neg (by omega)]

/-- Settles O6: inside the bytes the accumulated sum is the total reduced once; outside the range is refused. -/
theorem sumAddsTheRange : Obligations.SumAddsTheRange :=
  fun s _ _ _ =>
    ⟨fun ordered inside => execSum_of_inside ordered inside s, fun outside => execSum_of_outside outside s⟩

theorem sumRange_split {b : Bytes} {a m c : Nat} (h₁ : a ≤ m) (h₂ : m ≤ c) :
    sumRange b a c = sumRange b a m + sumRange b m c := by
  have slices : (b.drop a).take (c - a) = (b.drop a).take (m - a) ++ (b.drop m).take (c - m) := by
    rw [show c - a = (m - a) + (c - m) by omega, List.take_add, List.drop_drop, show a + (m - a) = m by omega]
  rw [sumRange_eq, sumRange_eq, sumRange_eq, slices, sumMod256_append]

/-- A range of one byte sums to it. -/
theorem sumRange_one {b : Bytes} {c : Nat} {x : Byte} (at_c : b[c]? = some x) : sumRange b c (c + 1) = x := by
  obtain ⟨inside, rfl⟩ := List.getElem?_eq_some_iff.mp at_c
  rw [sumRange_eq, Nat.add_sub_cancel_left, List.take_one, List.head?_drop, at_c]
  simp [sumMod256]

/-- A range extended by the next byte has that byte more (R49). -/
theorem sumRange_succ {b : Bytes} {a c : Nat} {x : Byte} (ordered : a ≤ c) (at_c : b[c]? = some x) :
    sumRange b a (c + 1) = sumRange b a c + x := by
  rw [sumRange_split ordered (Nat.le_succ c), sumRange_one at_c]

/-- Bytes behind a range are not read. -/
theorem sumRange_take_append {b : Bytes} {a c : Nat} (ordered : a ≤ c) (inside : c ≤ b.length) (l : Bytes) :
    sumRange (b.take c ++ l) a c = sumRange b a c := by
  have length : (b.take c).length = c := by simp [inside]
  have slice : ((b.take c ++ l).drop a).take (c - a) = (b.drop a).take (c - a) := by
    rw [List.drop_append_of_le_length (by omega), List.drop_take, List.take_append_of_le_length (by simp; omega),
      List.take_take, Nat.min_self]
  rw [sumRange_eq, sumRange_eq, slice]

/-- Settles O7: a range is the slices it splits into, the sum reads a slice up to permutation, and extension is a
split. -/
theorem sumLaws : Obligations.SumLaws := by
  refine ⟨fun b a m c h₁ h₂ _ => sumRange_split h₁ h₂, fun b b' a c a' c' _ _ _ _ perm => ?_,
    fun b a c x ordered inside => ⟨sumRange_succ ordered, ?_⟩⟩
  · rw [sumRange_eq, sumRange_eq, sumMod256_perm perm]
  · have appended : (b.take c ++ [x])[c]? = some x := by simp [inside]
    rw [sumRange_succ ordered appended, sumRange_take_append ordered inside]

end Sys2Proof.Machine
end

section
/-! PROOF. What holds of every frame `PACK` gives (41_frame_encoder.md R53). -/

namespace Sys2Proof.Machine

open Safety

/-! ### The fields of a TX frame (R34) -/

theorem txFrame_header (op : Byte) (p : Bytes) (q : Byte) : (txFrame op p q).take 4 = [0xFE, 0xFE, 0x68, 0x25] := rfl

theorem txFrame_opcode (op : Byte) (p : Bytes) (q : Byte) : (txFrame op p q)[4]? = some op := rfl

theorem txFrame_payload (op : Byte) (p : Bytes) (q : Byte) : ((txFrame op p q).drop 7).take p.length = p := by
  simp [txFrame]

theorem txFrame_sequence (op : Byte) (p : Bytes) (q : Byte) : (txFrame op p q)[7 + p.length]? = some q := by
  have place : (txFrame op p q).length - 3 = 7 + p.length := by rw [txFrame_length]; omega
  exact place ▸ txFrame_sequenceByte op p q

theorem txFrame_terminator (op : Byte) (p : Bytes) (q : Byte) : (txFrame op p q)[9 + p.length]? = some 0x16 := by
  simp [txFrame, Nat.add_comm 9]

/-- The length field, which stands one index before the RX frame's. -/
theorem claimedLength_txFrame {op : Byte} {p : Bytes} {q : Byte} (fits : p.length ≤ 65535) :
    claimedLength (0 :: txFrame op p q) = p.length :=
  high_low fits

/-- The checksum is the sum of what stands between the two sync bytes and itself (R34). -/
theorem txFrame_checksum (op : Byte) (p : Bytes) (q : Byte) :
    (txFrame op p q)[8 + p.length]? = some (sumMod256 (((txFrame op p q).drop 2).take (6 + p.length))) := by
  have summed : ((txFrame op p q).drop 2).take (6 + p.length)
      = [0x68, 0x25, op, highByte p.length, lowByte p.length] ++ p ++ [q] := by
    simp [txFrame, Nat.add_comm 6, List.take_length_add_append]
  rw [summed]
  simp [txFrame, Nat.add_comm 8]

/-- The fourth byte tells a TX frame from an RX frame (R53). -/
theorem not_hasHeader_txFrame (op : Byte) (p : Bytes) (q : Byte) : ¬ HasHeader (txFrame op p q) := by
  simp [HasHeader, txFrame]

theorem txFrame_injective {op op' : Byte} {p p' : Bytes} {q q' : Byte} (same : txFrame op p q = txFrame op' p' q') :
    op = op' ∧ p = p' ∧ q = q' := by
  have length : p.length = p'.length := by simpa using congrArg List.length same
  have opcodes := txFrame_opcode op p q
  have payloads := txFrame_payload op p q
  have sequences := txFrame_sequence op p q
  rw [same] at opcodes payloads sequences
  rw [length] at payloads sequences
  exact ⟨Option.some.inj (opcodes.symm.trans (txFrame_opcode ..)), payloads.symm.trans (txFrame_payload ..),
    Option.some.inj (sequences.symm.trans (txFrame_sequence ..))⟩

/-! ### `PACK` -/

theorem exec_pack_of_gt {p : Bytes} (tooLong : 65535 < p.length) (op q : Byte) (s : State) :
    exec (.pack op p q) s = .refused .payloadTooLong := by
  simp only [exec, execPack, packFrame_of_gt tooLong]
  rfl

/-- The frame `PACK` gives is the TX frame of a payload that fits. -/
theorem exec_pack_frame {op : Byte} {p : Bytes} {q : Byte} {s t : State} {f : Bytes}
    (run : exec (.pack op p q) s = .next t) (result : t.result = some (.okFrame f)) :
    p.length ≤ 65535 ∧ f = txFrame op p q := by
  by_cases fits : p.length ≤ 65535
  · obtain rfl := Host.Outcome.next.inj (run.symm.trans (packBuildsTheTxFrame s op p q fits))
    exact ⟨fits, (Result.okFrame.inj (Option.some.inj result)).symm⟩
  · exact nomatch run.symm.trans (exec_pack_of_gt (Nat.lt_of_not_le fits) op q s)

/-- Settles O9: the frame is the table's, of which each clause is one field. -/
theorem packFrameProperties : Obligations.PackFrameProperties := by
  intro s t op p q f run result
  obtain ⟨fits, rfl⟩ := exec_pack_frame run result
  have last : (txFrame op p q).length - 1 = 9 + p.length := by rw [txFrame_length]; omega
  have check : (txFrame op p q).length - 2 = 8 + p.length := by rw [txFrame_length]; omega
  have sums : exec (.sum (txFrame op p q) 2 (8 + p.length)) s
      = .next (withResult s (.okValue (sumMod256 (((txFrame op p q).drop 2).take (6 + p.length))))) := by
    rw [show 6 + p.length = 8 + p.length - 2 by omega]
    exact execSum_of_inside (by omega) (by rw [txFrame_length]; omega) s
  rw [last, check]
  exact ⟨txFrame_length op p q, txFrame_header op p q, txFrame_terminator op p q, ⟨_, txFrame_checksum op p q, sums⟩,
    claimedLength_txFrame fits, txFrame_payload op p q, txFrame_opcode op p q, txFrame_sequence op p q,
    not_hasHeader_txFrame op p q⟩

/-- Settles O10: equal answers have equal results, and a frame holds its triple at known places. -/
theorem packIsInjective : Obligations.PackIsInjective := by
  intro s op op' p p' q q' fits fits' same
  rw [packBuildsTheTxFrame s op p q fits, packBuildsTheTxFrame s op' p' q' fits'] at same
  have results := congrArg State.result (Host.Outcome.next.inj same)
  exact txFrame_injective (Result.okFrame.inj (Option.some.inj results))

end Sys2Proof.Machine
end

section
/-! PROOF. The frames of the commands whose operands are numbers or none (42_commands.md R58 to R63). -/

namespace Sys2Proof.Machine

open Safety

/-- A typed `SEND` in an open session whose builder gives a payload sends its frame (R55). -/
theorem sendTyped_sends {x : Option Command} {c : Command} {op : Byte} {p : Bytes} {s : State}
    (opened : s.session = .opened) (typed : x = some c) (code : opcode (commandOperation c) = op) (few : fewGroups c)
    (built : buildPayload c = .ok p) : sendTyped x s = .next (sent s (txFrame op p (s.seq + 1))) := by
  subst typed code
  exact sendCommand_ok opened few built

/-- The frame without a payload, its checksum summed up to the sequence byte. -/
theorem txFrame_nil (op q : Byte) :
    txFrame op [] q = [0xFE, 0xFE, 0x68, 0x25, op, 0x00, 0x00, q, 0x68 + 0x25 + op + q, 0x16] := by
  have sum : sumMod256 [0x68, 0x25, op, 0x00, 0x00, q] = 0x68 + 0x25 + op + q := by
    rw [← sumAll_eq]
    simp [sumAll]
  calc txFrame op [] q
    _ = [0xFE, 0xFE, 0x68, 0x25, op, 0x00, 0x00, q, sumMod256 [0x68, 0x25, op, 0x00, 0x00, q], 0x16] := rfl
    _ = _ := by rw [sum]

/-- Settles O11: both builders give the empty payload, and the constant part of the sum is 91 or 93. -/
theorem rebootAndHandshakeFrames : Obligations.RebootAndHandshakeFrames := by
  intro s opened
  have reboot : exec .sendReboot s = .next (sent s (txFrame 0x04 [] (s.seq + 1))) :=
    sendCommand_ok (c := .reboot) opened trivial rfl
  have handshake : exec .sendHandshake s = .next (sent s (txFrame 0x06 [] (s.seq + 1))) :=
    sendCommand_ok (c := .handshake) opened trivial rfl
  rw [reboot, handshake, txFrame_nil, txFrame_nil]
  exact ⟨rfl, rfl⟩

theorem bigEndian_ofNat {n : Nat} (fits : n ≤ 65535) : bigEndian (BitVec.ofNat 16 n) = [highByte n, lowByte n] :=
  bigEndian_lengthField fits

theorem littleEndian_ofNat {n : Nat} (fits : n ≤ 65535) :
    littleEndian (BitVec.ofNat 16 n) = [lowByte n, highByte n] := by
  obtain ⟨high, low⟩ : hiByte (BitVec.ofNat 16 n) = highByte n ∧ [loByte (BitVec.ofNat 16 n)] = [lowByte n] :=
    List.cons.inj (bigEndian_ofNat fits)
  rw [littleEndian, high, List.singleton_inj.mp low]

/-- Settles O12: with a nonzero `beeperTime` and nothing unset the command holds the arguments as they are. -/
theorem beeperAndLedEncodesItsArguments : Obligations.BeeperAndLedEncodesItsArguments := by
  intro s bt bc lt lf opened positive btFits bcFits ltFits lfFits
  have nonzero : BitVec.ofNat 16 bt ≠ 0 := fun zero => by
    have := (asU16_eq_zero (asU16_natCast btFits)).mp zero
    omega
  have typed : beeperAndLedCommand (some bt) (some bc) (some lt) (some lf)
      = some (.beeperAndLed (BitVec.ofNat 16 bt) (BitVec.ofNat 8 bc) (BitVec.ofNat 16 lt) (BitVec.ofNat 8 lf)) := by
    simp only [beeperAndLedCommand, asOptional, asU16_natCast btFits, asU8_natCast bcFits, asU16_natCast ltFits,
      asU8_natCast lfFits, Option.map_some, Option.bind_eq_bind, Option.bind_some, if_neg nonzero]
  refine sendTyped_sends opened typed rfl trivial ?_
  simp only [buildPayload, bigEndian_ofNat btFits, littleEndian_ofNat ltFits]
  rfl

/-- Where `beeperTime` is unset or zero and the rest unset or in its types, the command is the defaults (R59). -/
theorem beeperAndLedCommand_defaults {bt bc lt lf : Option Int} (unset : bt = none ∨ bt = some 0)
    (bcTyped : unsetOr isU8 bc = true) (ltTyped : unsetOr isU16 lt = true) (lfTyped : unsetOr isU8 lf = true) :
    beeperAndLedCommand bt bc lt lf = some beepDefaults := by
  obtain ⟨c, ec⟩ := Option.isSome_iff_exists.mp ((asOptional_isSome asU8_isSome bc).trans bcTyped)
  obtain ⟨l, el⟩ := Option.isSome_iff_exists.mp ((asOptional_isSome asU16_isSome lt).trans ltTyped)
  obtain ⟨f, ef⟩ := Option.isSome_iff_exists.mp ((asOptional_isSome asU8_isSome lf).trans lfTyped)
  rcases unset with rfl | rfl <;> simp only [beeperAndLedCommand, ec, el, ef] <;> rfl

/-- Settles O13: the command is the defaults, whose payload is written out. -/
theorem beeperAndLedSubstitutesDefaults : Obligations.BeeperAndLedSubstitutesDefaults :=
  fun _ _ _ _ _ opened unset bcTyped ltTyped lfTyped =>
    sendTyped_sends opened (beeperAndLedCommand_defaults unset bcTyped ltTyped lfTyped) rfl trivial rfl

/-- Settles O14: a u16 duration is typed as itself and built high byte first. -/
theorem durationCommandFrames : Obligations.DurationCommandFrames := by
  intro s d opened fits
  have cancel : cardSelectCancelCommand d = some (.cardSelectCancel (BitVec.ofNat 16 d)) := by
    rw [cardSelectCancelCommand, asU16_natCast fits, Option.map_some]
  have pending : cardPendingCommand d = some (.cardPending (BitVec.ofNat 16 d)) := by
    rw [cardPendingCommand, asU16_natCast fits, Option.map_some]
  rw [← bigEndian_ofNat fits]
  exact ⟨sendTyped_sends opened cancel rfl trivial rfl, sendTyped_sends opened pending rfl trivial rfl⟩

/-- Settles O15: a byte is typed as itself and is the payload. -/
theorem cardTestRequestFrame : Obligations.CardTestRequestFrame := by
  intro s t opened fits
  have typed : m1CardTestRequestCommand t = some (.m1CardTestRequest (BitVec.ofNat 8 t)) := by
    rw [m1CardTestRequestCommand, asU8_natCast fits, Option.map_some]
  exact sendTyped_sends opened typed rfl trivial rfl

end Sys2Proof.Machine
end

section
/-! PROOF. `SEND` through its own rows and through the generic row (42_commands.md R54 to R56, 44_session.md R89). -/

namespace Sys2Proof.Machine

open Safety

/-- Settles O22: a well-formed `SEND` is one command, which asks for the session first. -/
theorem sendInClosedIsRejected : Obligations.SendInClosedIsRejected := by
  intro i s send wf closed
  rcases exec_send send with ⟨ill, -⟩ | ⟨-, c, -, -, eq⟩
  · exact absurd wf (by simp [ill])
  · rw [eq]
    exact sendCommand_closed c closed

/-- Settles O28: a `SEND` that completes either raises, and then in the status it answers, or answers a frame. -/
theorem failedSendChangesNothing : Obligations.FailedSendChangesNothing := by
  intro i s t st send run result
  rcases exec_send_ends send run with ⟨st', rfl⟩ | ⟨o, p, -, -, rfl⟩
  · obtain rfl : st' = st := Result.raised.inj (Option.some.inj result)
    rfl
  · cases result

/-! ### The named arguments -/

/-- The arguments of `SEND` may stand in any order (R46). -/
theorem commandOf_perm {args args' : List Arg} (h : args.Perm args') (o : Operation) :
    commandOf o args = commandOf o args' := by
  by_cases once : (args.map Arg.name).Nodup
  · have found := findArg_perm h once
    have only := onlyOnce_perm h
    cases o <;> simp only [commandOf, optionalInt, requiredInt, requiredBytes, optionalGroups, found, only]
  · have rejected (names : List ArgName) : onlyOnce names args = false :=
      Bool.eq_false_iff.mpr fun only => once (onlyOnce_iff.mp only).1
    have rejected' (names : List ArgName) : onlyOnce names args' = false := onlyOnce_perm h names ▸ rejected names
    cases o <;> simp only [commandOf, rejected, rejected', Bool.false_eq_true, if_false]

/-- The arguments of beeperAndLed, those that are set, in the order of R59. -/
def beeperArgs (bt bc lt lf : Option Int) : List Arg :=
  (bt.toList.map fun v => ⟨.beeperTime, .int v⟩) ++ (bc.toList.map fun v => ⟨.beeperCycle, .int v⟩) ++
    (lt.toList.map fun v => ⟨.ledTime, .int v⟩) ++ (lf.toList.map fun v => ⟨.ledFlashCycle, .int v⟩)

/-- The command is that of beeperAndLed's own row: `SEND` reads each argument, set or unset, under its name (R59). -/
theorem commandOf_beeperArgs (bt bc lt lf : Option Int) :
    commandOf .beeperAndLed (beeperArgs bt bc lt lf) = beeperAndLedCommand bt bc lt lf := by
  cases bt <;> cases bc <;> cases lt <;> cases lf <;> rfl

theorem exec_send_of_operation {selector : Byte} {o : Operation} (named : operationOf selector = some o)
    (args : List Arg) (s : State) : exec (.send selector args) s = sendTyped (commandOf o args) s := by
  simp only [exec, execSend, named]

/-- `SEND` does the same on its arguments in any order (R46). -/
theorem exec_send_perm (selector : Byte) {args args' : List Arg} (h : args.Perm args') (s : State) :
    exec (.send selector args) s = exec (.send selector args') s := by
  simp only [exec, execSend, commandOf_perm h]

theorem operationOf_eq_none {selector : Byte} (outside : selector ∉ catalog.map opcode) :
    operationOf selector = none :=
  List.find?_eq_none.mpr fun o mem same => outside (List.mem_map.mpr ⟨o, mem, by simpa using same⟩)

/-- Settles O23: each selector names its operation, on whose arguments, in the order of its row, `SEND` computes the row's
own command. -/
theorem sendRunsTheSelectedOperation : Obligations.SendRunsTheSelectedOperation := by
  refine ⟨fun s opened => (rebootAndHandshakeFrames s opened).2, fun s => rfl, fun s args bt bc lt lf perm => ?_,
    fun s d => rfl, fun s d => rfl, fun s t => rfl, fun s gs => rfl, fun s => rfl,
    fun s args b p perm => exec_send_perm 0x22 perm s, fun s args b p c perm => exec_send_perm 0x23 perm s,
    fun s args b p w perm => exec_send_perm 0x24 perm s, fun s args b p w c perm => exec_send_perm 0x25 perm s,
    fun s op args outside => ?_⟩
  · calc exec (.send 0x05 args) s
      _ = sendTyped (commandOf .beeperAndLed args) s := exec_send_of_operation rfl args s
      _ = sendTyped (beeperAndLedCommand bt bc lt lf) s := by
        rw [commandOf_perm (args' := beeperArgs bt bc lt lf) perm, commandOf_beeperArgs]
  · simp only [exec, execSend, operationOf_eq_none (selector := op) outside]
    rfl

end Sys2Proof.Machine
end

section
/-! PROOF. What the interface admits and refuses (60_exceptions.md R101), and that nothing faults (R82, R102). -/

namespace Sys2Proof.Machine

open Safety

/-- The kinds of transactions: a `SEND`, an arrival, or one of the four others. -/
theorem instr_kinds (i : Instr) :
    isSend i = true ∨ (∃ c, arrival i = some c) ∨ (∃ op p q, i = .pack op p q) ∨
    (∃ b start stop, i = .sum b start stop) ∨ i = .close ∨ i = .reset := by
  cases i <;> simp [isSend, arrival]

/-- Settles O24: `SEND`s and arrivals are refused where ill-formed, `PACK` and `SUM` by their own checks, and the rest is
always well-formed. -/
theorem illFormedIsRefused : Obligations.IllFormedIsRefused := by
  intro i s ill
  rcases instr_kinds i with send | ⟨c, arrives⟩ | ⟨op, p, q, rfl⟩ | ⟨b, start, stop, rfl⟩ | rfl | rfl
  · rcases exec_send send with ⟨-, eq⟩ | ⟨wf, -⟩
    · exact eq s
    · exact absurd wf (by simp [ill])
  · rcases exec_arrival arrives with ⟨-, eq⟩ | ⟨wf, -⟩
    · exact eq s
    · exact absurd wf (by simp [ill])
  · exact exec_pack_of_gt (Nat.lt_of_not_le (of_decide_eq_false ill)) op q s
  · exact (sumAddsTheRange s b start stop).2 (by simp [Instr.wellFormed] at ill; omega)
  · cases ill
  · cases ill

/-- Settles O25: every case of a command and of a chunk completes but for the chunk past the capacity. -/
theorem wellFormedCompletes : Obligations.WellFormedCompletes := by
  intro i s wf
  rcases instr_kinds i with send | ⟨c, arrives⟩ | ⟨op, p, q, rfl⟩ | ⟨b, start, stop, rfl⟩ | rfl | rfl
  · rcases exec_send send with ⟨ill, -⟩ | ⟨-, c, -, few, eq⟩
    · exact absurd wf (by simp [ill])
    · rw [eq]
      rcases sendCommand_cases c few s with ⟨-, e⟩ | ⟨-, st, -, e⟩ | ⟨-, p, -, -, e⟩ <;> exact Or.inl ⟨_, e⟩
  · rw [exec_arrival_of_wellFormed arrives wf]
    rcases feedChunk_cases c s with ⟨-, e⟩ | ⟨opened, ⟨cap, bounded, past⟩, e⟩ | ⟨-, k, es, -, -, e⟩
    · exact Or.inl ⟨_, e⟩
    · exact Or.inr ⟨c, cap, arrives, opened, bounded, past, e⟩
    · exact Or.inl ⟨_, e⟩
  · exact Or.inl ⟨_, packBuildsTheTxFrame s op p q (of_decide_eq_true wf)⟩
  · have inside : start ≤ stop ∧ stop ≤ b.length := by simpa [Instr.wellFormed] using wf
    exact Or.inl ⟨_, (sumAddsTheRange s b start stop).1 inside.1 inside.2⟩
  · exact Or.inl ⟨_, rfl⟩
  · exact Or.inl ⟨_, rfl⟩

theorem exec_ne_fault (i : Instr) (s : State) (f : Fault) : exec i s ≠ .fault f := by
  intro fault
  cases wf : i.wellFormed with
  | false => exact nomatch fault.symm.trans (illFormedIsRefused i s wf)
  | true =>
    rcases wellFormedCompletes i s wf with ⟨t, next⟩ | ⟨c, cap, -, -, -, -, refused⟩
    · exact nomatch fault.symm.trans next
    · exact nomatch fault.symm.trans refused

/-- What a step can do (R27, R92): wait, refuse bytes that are no transaction, or run the oldest transaction. -/
theorem step_cases (s : State) :
    step s = .next s ∨ (∃ e, step s = .refused (.undecodable e)) ∨
    ∃ i rest, step s = exec i { s with pending := rest } := by
  cases presented : s.pending with
  | nil => exact Or.inl (stepWaitsOrRefusesUndecodable.1 s presented)
  | cons b rest =>
    cases decodes : decodeWhole b with
    | error e => exact Or.inr (Or.inl ⟨e, stepWaitsOrRefusesUndecodable.2 s b rest e presented decodes⟩)
    | ok i => exact Or.inr (Or.inr ⟨i, rest, stepRunsTheDecodedTransaction s b rest i presented decodes⟩)

/-- Settles O26: a transaction is refused or completes (O24, O25), and a step waits, refuses, or is one. -/
theorem nothingFaults : Obligations.NothingFaults := by
  refine ⟨exec_ne_fault, fun s f => ?_⟩
  rcases step_cases s with waits | ⟨e, refuses⟩ | ⟨i, rest, runs⟩
  · simp [waits]
  · simp [refuses]
  · rw [runs]
    exact exec_ne_fault i _ f

end Sys2Proof.Machine
end

section
/-! PROOF. Which transactions write which part of the state (10_state.md R12 to R14, R19, R21), and the invariant of the
block. -/

namespace Sys2Proof.Machine

open Safety

theorem ne_reset_close_of_send {i : Instr} (send : isSend i = true) : i ≠ .reset ∧ i ≠ .close := by
  constructor <;> rintro rfl <;> cases send

theorem ne_reset_close_of_arrival {i : Instr} {c : Bytes} (arrives : arrival i = some c) : i ≠ .reset ∧ i ≠ .close := by
  constructor <;> rintro rfl <;> cases arrives

/-- The states a transaction can end in: a session's start or end, its result alone, a frame sent, or a chunk received. -/
theorem exec_next {i : Instr} {s t : State} (run : exec i s = .next t) :
    (i = .reset ∧ t = startSession s) ∨ (i = .close ∧ t = endSession s) ∨
    (i ≠ .reset ∧ i ≠ .close ∧ ∃ r, t = withResult s r) ∨
    (isSend i = true ∧ ∃ f, IsTxFrame f ∧ t = sent s f) ∨
    (∃ c k es, arrival i = some c ∧ Admits s c.length ∧ Waiting ((s.rxbuf ++ c).drop k) ∧
      t = received s ((s.rxbuf ++ c).drop k) es) := by
  rcases exec_cases i s with ⟨r, e⟩ | ⟨send, -, e⟩ | ⟨send, -, st, -, e⟩ | ⟨send, -, o, p, -, fits, e⟩ |
    ⟨op, p, q, rfl, -, e⟩ | ⟨b, start, stop, rfl, -, -, e⟩ | ⟨c, arrives, -, e⟩ |
    ⟨c, k, es, arrives, admits, -, waits, e⟩ | ⟨rfl, e⟩ | ⟨rfl, e⟩ <;> rw [e] at run <;> cases run
  · obtain ⟨notReset, notClose⟩ := ne_reset_close_of_send send
    exact Or.inr (Or.inr (Or.inl ⟨notReset, notClose, _, rfl⟩))
  · obtain ⟨notReset, notClose⟩ := ne_reset_close_of_send send
    exact Or.inr (Or.inr (Or.inl ⟨notReset, notClose, _, rfl⟩))
  · exact Or.inr (Or.inr (Or.inr (Or.inl ⟨send, _, ⟨_, _, _, fits, rfl⟩, rfl⟩)))
  · exact Or.inr (Or.inr (Or.inl ⟨nofun, nofun, _, rfl⟩))
  · exact Or.inr (Or.inr (Or.inl ⟨nofun, nofun, _, rfl⟩))
  · obtain ⟨notReset, notClose⟩ := ne_reset_close_of_arrival arrives
    exact Or.inr (Or.inr (Or.inl ⟨notReset, notClose, _, rfl⟩))
  · exact Or.inr (Or.inr (Or.inr (Or.inr ⟨c, k, es, arrives, admits, waits, rfl⟩)))
  · exact Or.inr (Or.inl ⟨rfl, rfl⟩)
  · exact Or.inl ⟨rfl, rfl⟩

/-! ### Who writes what -/

theorem exec_session {i : Instr} {s t : State} (run : exec i s = .next t) :
    (i = .reset → t.session = .opened) ∧ (i = .close → t.session = .closed) ∧
    (i ≠ .reset → i ≠ .close → t.session = s.session) := by
  rcases exec_next run with ⟨rfl, rfl⟩ | ⟨rfl, rfl⟩ | ⟨notReset, notClose, r, rfl⟩ | ⟨send, f, -, rfl⟩ |
    ⟨c, k, es, arrives, -, -, rfl⟩
  · exact ⟨fun _ => rfl, nofun, fun h => absurd rfl h⟩
  · exact ⟨nofun, fun _ => rfl, fun _ h => absurd rfl h⟩
  · exact ⟨fun h => absurd h notReset, fun h => absurd h notClose, fun _ _ => rfl⟩
  · obtain ⟨notReset, notClose⟩ := ne_reset_close_of_send send
    exact ⟨fun h => absurd h notReset, fun h => absurd h notClose, fun _ _ => rfl⟩
  · obtain ⟨notReset, notClose⟩ := ne_reset_close_of_arrival arrives
    exact ⟨fun h => absurd h notReset, fun h => absurd h notClose, fun _ _ => rfl⟩

theorem exec_pack_session (s : State) (x : Session) (op : Byte) (p : Bytes) (q : Byte) :
    exec (.pack op p q) { s with session := x } = mapNext (fun t => { t with session := x }) (exec (.pack op p q) s) := by
  simp only [exec, execPack]
  cases packFrame op p q <;> rfl

theorem exec_sum_session (s : State) (x : Session) (b : Bytes) (start stop : Nat) :
    exec (.sum b start stop) { s with session := x }
      = mapNext (fun t => { t with session := x }) (exec (.sum b start stop) s) := by
  simp only [exec, execSum]
  split <;> rfl

/-- Settles O30: of the states a transaction can end in, only a session's start and end write `STATE`; `PACK` and `SUM`
branch on their operands alone. -/
theorem sessionIsWrittenByCloseAndReset : Obligations.SessionIsWrittenByCloseAndReset :=
  ⟨fun _ _ _ => exec_session, exec_pack_session, exec_sum_session⟩

/-- Settles O31: `RXBUF` is empty after a session's start or end, a suffix after a received chunk, and otherwise
kept. -/
theorem rxbufIsTheDecodersAlone : Obligations.RxbufIsTheDecodersAlone := by
  intro i s t run
  rcases exec_next run with ⟨rfl, rfl⟩ | ⟨rfl, rfl⟩ | ⟨notReset, notClose, r, rfl⟩ | ⟨send, f, -, rfl⟩ |
    ⟨c, k, es, arrives, -, -, rfl⟩
  · exact ⟨fun _ => rfl, nofun, fun _ _ h => absurd rfl h⟩
  · exact ⟨fun _ => rfl, nofun, fun _ h => absurd rfl h⟩
  · exact ⟨fun h => (h.elim notClose notReset).elim, fun _ _ => Or.inl rfl, fun _ _ _ => rfl⟩
  · obtain ⟨notReset, notClose⟩ := ne_reset_close_of_send send
    exact ⟨fun h => (h.elim notClose notReset).elim, fun _ _ => Or.inl rfl, fun _ _ _ => rfl⟩
  · obtain ⟨notReset, notClose⟩ := ne_reset_close_of_arrival arrives
    refine ⟨fun h => (h.elim notClose notReset).elim, fun c' arrives' => ?_,
      fun noArrival => (nomatch noArrival.symm.trans arrives)⟩
    obtain rfl := Option.some.inj (arrives.symm.trans arrives')
    exact Or.inr ⟨k, rfl⟩

/-- Settles O32: only a frame sent grows `txout`, by that frame, and only a chunk received grows `rxout`, by its
events. -/
theorem outputsGrowInOrder : Obligations.OutputsGrowInOrder := by
  intro i s t run
  rcases exec_next run with ⟨-, rfl⟩ | ⟨-, rfl⟩ | ⟨-, -, r, rfl⟩ | ⟨send, f, -, rfl⟩ | ⟨c, k, es, arrives, -, -, rfl⟩
  · exact ⟨Or.inl rfl, Or.inl rfl⟩
  · exact ⟨Or.inl rfl, Or.inl rfl⟩
  · exact ⟨Or.inl rfl, Or.inl rfl⟩
  · exact ⟨Or.inr ⟨send, f, rfl, rfl⟩, Or.inl rfl⟩
  · exact ⟨Or.inl rfl, Or.inr ⟨Option.isSome_of_eq_some arrives, es, rfl, rfl⟩⟩

/-- Settles O33: none of the states a transaction can end in differs in `bufCap` or `pending`. -/
theorem buildAndQueueAreLeft : Obligations.BuildAndQueueAreLeft := by
  intro i s t run
  rcases exec_next run with ⟨-, rfl⟩ | ⟨-, rfl⟩ | ⟨-, -, r, rfl⟩ | ⟨-, f, -, rfl⟩ | ⟨c, k, es, -, -, -, rfl⟩ <;>
    exact ⟨rfl, rfl⟩

/-! ### What no transaction reads -/

/-- `s` with another last result, and with earlier frames and events in front of its own. -/
def withEarlierOutputs (r : Option Result) (x : List Bytes) (y : List Event) (s : State) : State :=
  { s with result := r, txout := x ++ s.txout, rxout := y ++ s.rxout }

/-- The answer with earlier frames and events in front of those put out. -/
def putBehind (x : List Bytes) (y : List Event) : Answer → Answer :=
  mapNext fun t => { t with txout := x ++ t.txout, rxout := y ++ t.rxout }

section

variable (r : Option Result) (x : List Bytes) (y : List Event) (s : State)

theorem transmit_withEarlierOutputs (f : Bytes) (q : Byte) :
    .next (transmit f q (withEarlierOutputs r x y s)) = putBehind x y (.next (transmit f q s)) := by
  simp [transmit, finish, withEarlierOutputs, putBehind, mapNext]

theorem receive_withEarlierOutputs (b : Bytes) (es : List Event) :
    .next (receive b es (withEarlierOutputs r x y s)) = putBehind x y (.next (receive b es s)) := by
  simp [receive, finish, withEarlierOutputs, putBehind, mapNext]

theorem sendCommand_withEarlierOutputs {c : Command} (few : fewGroups c) :
    sendCommand c (withEarlierOutputs r x y s) = putBehind x y (sendCommand c s) := by
  rcases sendCommand_cases c few s with ⟨closed, e⟩ | ⟨opened, st, error, e⟩ | ⟨opened, p, built, -, e⟩ <;> rw [e]
  · exact sendCommand_closed c closed
  · exact sendCommand_error opened error
  · rw [← transmit_withEarlierOutputs]
    exact sendCommand_ok opened few built

theorem feedChunk_withEarlierOutputs (c : Bytes) :
    feedChunk c (withEarlierOutputs r x y s) = putBehind x y (feedChunk c s) := by
  rcases feedChunk_cases c s with ⟨closed, e⟩ | ⟨opened, ⟨cap, bounded, past⟩, e⟩ | ⟨admits, k, es, pass, -, e⟩ <;>
    rw [e]
  · exact feedChunk_closed c closed
  · exact feedChunk_overflow opened (by simpa [withEarlierOutputs, overflows, bounded] using past)
  · rw [← receive_withEarlierOutputs]
    exact feedChunk_pass admits pass

theorem exec_withEarlierOutputs (i : Instr) :
    exec i (withEarlierOutputs r x y s) = putBehind x y (exec i s) := by
  rcases instr_kinds i with send | ⟨c, arrives⟩ | ⟨op, p, q, rfl⟩ | ⟨b, start, stop, rfl⟩ | rfl | rfl
  · rcases exec_send send with ⟨-, eq⟩ | ⟨-, c, -, few, eq⟩ <;> rw [eq, eq]
    · rfl
    · exact sendCommand_withEarlierOutputs r x y s few
  · rcases exec_arrival arrives with ⟨-, eq⟩ | ⟨-, eq⟩ <;> rw [eq, eq]
    · rfl
    · exact feedChunk_withEarlierOutputs r x y s c
  · simp only [exec, execPack]
    cases packFrame op p q <;> rfl
  · simp only [exec, execSum]
    split <;> rfl
  · rfl
  · rfl

end

/-- Settles O34: every way a transaction ends writes its result and appends to the outputs. -/
theorem outputsAreNeverRead : Obligations.OutputsAreNeverRead :=
  fun i s r x y => exec_withEarlierOutputs r x y s i

/-! ### The invariant -/

theorem waiting_nil : Waiting [] := Or.inl (Nat.zero_le 10)

/-- Settles O59: an open session with an empty, unbounded buffer and no frames. -/
theorem resetIsSound : Obligations.ResetIsSound where
  waiting := waiting_nil
  closedHoldsNothing _ := rfl
  withinCapacity := nofun
  framesOut := nofun

/-- Every transaction that completes keeps the invariant. -/
theorem exec_keeps_sound {i : Instr} {s t : State} (sound : Sound s) (run : exec i s = .next t) : Sound t := by
  obtain ⟨waiting, closedHoldsNothing, withinCapacity, framesOut⟩ := sound
  rcases exec_next run with ⟨-, rfl⟩ | ⟨-, rfl⟩ | ⟨-, -, r, rfl⟩ | ⟨-, f, frame, rfl⟩ |
    ⟨c, k, es, -, admits, waits, rfl⟩
  · exact ⟨waiting_nil, fun _ => rfl, fun _ _ => Nat.zero_le _, framesOut⟩
  · exact ⟨waiting_nil, fun _ => rfl, fun _ _ => Nat.zero_le _, framesOut⟩
  · exact ⟨waiting, closedHoldsNothing, withinCapacity, framesOut⟩
  · refine ⟨waiting, closedHoldsNothing, withinCapacity, fun g mem => ?_⟩
    rcases List.mem_append.mp mem with before | last
    · exact framesOut g before
    · exact List.mem_singleton.mp last ▸ frame
  · obtain ⟨opened, room⟩ := admits
    refine ⟨waits, fun closed => (nomatch opened.symm.trans closed), fun cap bound => ?_, framesOut⟩
    calc ((s.rxbuf ++ c).drop k).length
      _ ≤ (s.rxbuf ++ c).length := (List.drop_sublist k _).length_le
      _ = s.rxbuf.length + c.length := List.length_append
      _ ≤ cap := room cap bound

/-- Settles O58: a step waits or is a transaction, and the invariant does not read what is presented. -/
theorem everyStepKeepsSound : Obligations.EveryStepKeepsSound := by
  intro s t sound run
  rcases step_cases s with waits | ⟨e, refuses⟩ | ⟨i, rest, runs⟩
  · exact Host.Outcome.next.inj (run.symm.trans waits) ▸ sound
  · exact nomatch run.symm.trans refuses
  · have taken : Sound { s with pending := rest } :=
      ⟨sound.waiting, sound.closedHoldsNothing, sound.withinCapacity, sound.framesOut⟩
    exact exec_keeps_sound taken (runs.symm.trans run)

end Sys2Proof.Machine
end

section
/-! PROOF. Session control and the codes (44_session.md R90, R91; 60_exceptions.md R95 to R98). -/

namespace Sys2Proof.Machine

open Safety

/-- Settles O53: `CLOSE` is one equation, and on the state it leaves it writes what is there. -/
theorem closeEndsTheSession : Obligations.CloseEndsTheSession := by
  refine fun s => ⟨rfl, fun t run => ?_⟩
  cases run
  rfl

/-- Settles O54: `RESET` is one equation, and on the state it leaves it writes what is there. -/
theorem resetStartsASession : Obligations.ResetStartsASession := by
  refine fun s => ⟨rfl, fun t run => ?_⟩
  cases run
  rfl

/-- Settles O55: `RESET` writes the reset values, from which the handshake's frame (O11) carries 01. -/
theorem resetValues : Obligations.ResetValues := by
  refine ⟨rfl, rfl, rfl, fun s t run => ?_, (rebootAndHandshakeFrames State.reset rfl).2⟩
  cases run
  exact ⟨rfl, rfl, rfl⟩

/-- Settles O56: the codes as the tables list them. -/
theorem codesAreThoseOfTheTables : Obligations.CodesAreThoseOfTheTables :=
  ⟨rfl, fun _ => rfl, rfl, fun _ => rfl, rfl, rfl, rfl, rfl, rfl, rfl, rfl, rfl⟩

end Sys2Proof.Machine
end

section
/-! PROOF. What the decoder takes and refuses, and what a pass does with wrong terminators, marks and streams
(43_stream_decoder.md R75 to R87, 70_reset_and_hazards.md R110, R111). -/

namespace Sys2Proof.Machine

open Safety

/-! ### Arrivals -/

/-- Settles O60: each arrival row is its bytes at the decoder, and so is their `FEED`. -/
theorem arrivalRowsAreFeeds : Obligations.ArrivalRowsAreFeeds :=
  ⟨fun s op p q cs t fits =>
      exec_arrival_of_wellFormed (i := .rxFrame op p q cs t) rfl (decide_eq_true fits) s,
    fun s => exec_arrival_of_wellFormed (i := .rxResyncMark) rfl rfl s⟩

/-- Settles O36: the arrival is its bytes at the decoder, whose pass ends in a wait. -/
theorem feedCompletesInAWait : Obligations.FeedCompletesInAWait := by
  intro i c s arrives wf admits
  obtain ⟨k, es, pass, waits⟩ := decodePass_ends (s.rxbuf ++ c)
  refine ⟨k, es, ?_, waits⟩
  rw [exec_arrival_of_wellFormed arrives wf]
  exact feedChunk_pass admits pass

/-- Settles O44: the arrival is its bytes at the decoder, which asks for the capacity before it appends. -/
theorem feedPastCapacityIsRefused : Obligations.FeedPastCapacityIsRefused := by
  intro i c s cap arrives wf opened bounded past
  rw [exec_arrival_of_wellFormed arrives wf]
  exact feedChunk_overflow opened (by simpa [overflows, bounded] using past)

/-- Settles O45: the pass over a waiting buffer keeps it and gives no event. -/
theorem emptyFeedChangesNothing : Obligations.EmptyFeedChangesNothing := by
  intro s admits waits
  rw [exec_feed_waiting (c := []) admits (by rwa [List.append_nil])]
  simp [received, withResult]

/-! ### A wrong terminator, a mark -/

/-- One byte in front of an RX frame leaves no header in front. -/
theorem not_hasHeader_cons_packIn (t op : Byte) (p : Bytes) (q : Byte) : ¬ HasHeader (t :: packIn op p q) := by
  simp [HasHeader, packIn, rxBytes]

theorem packIn_length (op : Byte) (p : Bytes) (q : Byte) : (packIn op p q).length = 11 + p.length := rxBytes_length ..

/-- Settles O40: one iteration takes the frame but for its last byte, and the pass goes on from there, which is in
WAIT_RESYNC where an RX frame without a mark follows. -/
theorem badTerminatorKeepsItsByte : Obligations.BadTerminatorKeepsItsByte := by
  intro s c op p q cs t rest admits fits bad bytes
  have shorter : (t :: rest).length ≤ s.rxbuf.length + c.length := by
    rw [← List.length_append, bytes, List.length_append, rxBytes_length, List.length_cons]
    omega
  have goesOn {left : Bytes} {es : List Event} (behind : decodePass (t :: rest) = .ok (left, es)) :
      exec (.feed c) s = .next (received s left (.framing .badTerminator :: es)) :=
    exec_feed_pass admits (bytes ▸ decodePass_badTerminator fits bad behind)
  constructor
  · obtain ⟨left, es, behind, empty⟩ := exists_feed_empty admits shorter
    exact ⟨left, es, empty, goesOn behind⟩
  · rintro op' p' q' rfl noMark
    have long : 11 ≤ (t :: packIn op' p' q').length := by
      rw [List.length_cons, packIn_length]
      omega
    have waits : WaitResync (t :: packIn op' p' q') := ⟨long, not_hasHeader_cons_packIn t op' p' q', noMark⟩
    exact goesOn (decodePass_waiting (Or.inr (Or.inr waits)))

/-- Settles O41: one iteration drops everything through the mark's `16`, and the pass over the rest is that of an empty
chunk. -/
theorem resyncDropsThroughTheFirstMark : Obligations.ResyncDropsThroughTheFirstMark := by
  intro s c k admits long header here lowest
  have shorter : ((s.rxbuf ++ c).drop (k + 1)).length ≤ s.rxbuf.length + c.length := by
    rw [List.length_drop, List.length_append]
    omega
  obtain ⟨left, es, behind, empty⟩ := exists_feed_empty admits shorter
  exact ⟨left, es, empty, exec_feed_pass admits (decodePass_mark long header here lowest behind)⟩

/-- Settles O52: the mark is the lowest, and the header it leaves is in WAIT_SHORT. -/
theorem resyncMarkLeavesAHeader : Obligations.ResyncMarkLeavesAHeader := by
  intro s admits fiveOrMore header lowest
  have long : 11 ≤ (s.rxbuf ++ [0x16, 0xFE, 0xFE, 0xFE, 0x68, 0x26]).length := by
    simp only [List.length_append, List.length_cons, List.length_nil]
    omega
  have here : MarkAt (s.rxbuf ++ [0x16, 0xFE, 0xFE, 0xFE, 0x68, 0x26]) s.rxbuf.length := by simp [MarkAt]
  have headerLeft : (s.rxbuf ++ [0x16, 0xFE, 0xFE, 0xFE, 0x68, 0x26]).drop (s.rxbuf.length + 1)
      = [0xFE, 0xFE, 0xFE, 0x68, 0x26] := by simp
  have short : WaitShort [0xFE, 0xFE, 0xFE, 0x68, 0x26] := by simp [WaitShort]
  have noHeader : ¬ HasHeader (s.rxbuf ++ [0x16, 0xFE, 0xFE, 0xFE, 0x68, 0x26]) :=
    fun h => header ((HasHeader_append _ fiveOrMore).mp h)
  rw [arrivalRowsAreFeeds.2]
  refine exec_feed_pass admits (decodePass_mark long noHeader here lowest ?_)
  rw [headerLeft]
  exact decodePass_waiting (Or.inl short)

/-! ### Frames from an empty buffer -/

/-- From an empty buffer a `FEED` is the pass over its chunk. -/
theorem exec_feed_of_empty {s : State} {c left : Bytes} {es : List Event} (empty : s.rxbuf = [])
    (admits : Admits s c.length) (pass : decodePass c = .ok (left, es)) :
    exec (.feed c) s = .next (received s left es) :=
  exec_feed_pass admits (by rwa [empty, List.nil_append])

theorem decodePass_nil : decodePass [] = .ok ([], []) := decodePass_waiting waiting_nil

/-- Settles O51: the pass over a frame with a wrong terminator, or over one with it in place, and nothing behind it. -/
theorem rxFrameAloneGetsOneEvent : Obligations.RxFrameAloneGetsOneEvent := by
  intro s op p q cs t empty fits admits
  have room : Admits s (rxBytes op p q cs t).length := by rwa [rxBytes_length]
  rw [arrivalRowsAreFeeds.1 s op p q cs t fits]
  by_cases bad : t ≠ 0x16
  · have last : decodePass [t] = .ok ([t], []) := decodePass_waiting (Or.inl (by simp [WaitShort]))
    rw [if_pos bad]
    exact exec_feed_of_empty empty room (by simpa using decodePass_badTerminator (rest := []) fits bad last)
  · obtain rfl := not_not.mp bad
    have pass := decodePass_frame (op := op) (q := q) (cs := cs) fits decodePass_nil
    rw [List.append_nil] at pass
    rw [if_neg bad, exec_feed_of_empty empty room pass]
    split <;> rfl

theorem decodePass_packIn_append {op : Byte} {p : Bytes} {q : Byte} {rest left : Bytes} {es : List Event}
    (fits : p.length ≤ 65535) (behind : decodePass rest = .ok (left, es)) :
    decodePass (packIn op p q ++ rest) = .ok (left, .emit p :: es) := by
  simpa [packIn] using decodePass_frame (op := op) (q := q) (cs := rxChecksum op p q) fits behind

theorem decodePass_packIns {frames : List (Byte × Bytes × Byte)} (fit : ∀ f ∈ frames, f.2.1.length ≤ 65535) :
    decodePass (frames.flatMap fun f => packIn f.1 f.2.1 f.2.2) = .ok ([], frames.map fun f => .emit f.2.1) := by
  induction frames with
  | nil => exact decodePass_nil
  | cons f frames ih =>
    obtain ⟨first, rest⟩ := List.forall_mem_cons.mp fit
    exact decodePass_packIn_append first (ih rest)

/-- Settles O47: the pass takes one frame after the other. -/
theorem backToBackFramesAreAllEmitted : Obligations.BackToBackFramesAreAllEmitted :=
  fun _ _ empty admits fit => exec_feed_of_empty empty admits (decodePass_packIns fit)

/-- Settles O48: a TX frame has no RX header in front, so without a mark it is in WAIT_SHORT or WAIT_RESYNC. -/
theorem loopbackDecodesNothing : Obligations.LoopbackDecodesNothing := by
  intro s op p q empty fits admits noMark
  have short (bare : p = []) : WaitShort (txFrame op p q) := by simp [WaitShort, bare]
  have resync (loaded : p ≠ []) : WaitResync (txFrame op p q) := by
    have positive := List.length_pos_iff.mpr loaded
    refine ⟨?_, not_hasHeader_txFrame op p q, noMark⟩
    rw [txFrame_length]
    omega
  have waits : Waiting (txFrame op p q) := by
    by_cases bare : p = []
    · exact Or.inl (short bare)
    · exact Or.inr (Or.inr (resync bare))
  have room : Admits s (txFrame op p q).length := by rwa [txFrame_length]
  exact ⟨exec_feed_of_empty empty room (decodePass_waiting waits), short, resync⟩

/-- Settles O49: the noise's `16` and the frame's header are the lowest mark, and behind that `16` the frame stands
alone. -/
theorem frameBehindATerminatorIsFound : Obligations.FrameBehindATerminatorIsFound := by
  intro s noise op p q empty fits admits header lowest
  have long : 11 ≤ (noise ++ [0x16] ++ packIn op p q).length := by
    rw [List.length_append, packIn_length]
    omega
  have here : MarkAt (noise ++ [0x16] ++ packIn op p q) noise.length := by simp [MarkAt, packIn, rxBytes]
  have frame : (noise ++ [0x16] ++ packIn op p q).drop (noise.length + 1) = packIn op p q :=
    List.drop_left' (by simp)
  exact exec_feed_of_empty empty admits (decodePass_mark long header here lowest (by
    rw [frame]
    exact decodePass_packIn op q fits))

/-! ### Chunks of a stream -/

/-- An open session without a capacity admits every chunk. -/
theorem admits_unbounded {s : State} (opened : s.session = .opened) (unbounded : s.bufCap = none) (n : Nat) : Admits s n :=
  ⟨opened, fun _ bound => nomatch unbounded.symm.trans bound⟩

/-- Chunks fed one after the other leave what one pass over all of them leaves, but for the last result (R83). -/
theorem runAll_feeds (chunks : List Bytes) {s : State} (opened : s.session = .opened) (unbounded : s.bufCap = none)
    (waits : Waiting s.rxbuf) :
    ∃ left es r, runAll (chunks.map .feed) s = .next { received s left es with result := r } ∧
      decodePass (s.rxbuf ++ chunks.flatten) = .ok (left, es) := by
  induction chunks generalizing s with
  | nil =>
    refine ⟨s.rxbuf, [], s.result, by simp [runAll, received], ?_⟩
    rw [List.flatten_nil, List.append_nil]
    exact decodePass_waiting waits
  | cons c chunks ih =>
    obtain ⟨k, es₁, first, waits₁⟩ := decodePass_ends (s.rxbuf ++ c)
    have feeds := exec_feed_pass (admits_unbounded opened unbounded c.length) first
    obtain ⟨left, es₂, r, run, second⟩ := ih (s := received s ((s.rxbuf ++ c).drop k) es₁) opened unbounded waits₁
    refine ⟨left, es₁ ++ es₂, r, ?_, ?_⟩
    · rw [List.map_cons, runAll_cons feeds, run]
      simp [received]
    · rw [List.flatten_cons, ← List.append_assoc]
      exact decodePass_append chunks.flatten first second

/-- Settles O46: both runs are the one pass over buffer and chunks. -/
theorem chunkBoundariesDoNotMatter : Obligations.ChunkBoundariesDoNotMatter := by
  intro s chunks opened unbounded waits
  obtain ⟨left, es, r, run, pass⟩ := runAll_feeds chunks opened unbounded waits
  exact ⟨_, _, run, exec_feed_pass (admits_unbounded opened unbounded _) pass, rfl, rfl, rfl⟩

end Sys2Proof.Machine
end
